-- ==== Sys2Proof/Word.lean ====
section
/-! DEFINITION. The words of the Modbus RTU codec block: 8-bit bytes and 16-bit values
(spec/00_scope.md R9, R10). Every value of the block is unsigned. -/

namespace Sys2Proof

/-- A register, a buffer element or a frame byte (R9: "Every frame byte is 8 bits"). -/
abbrev Byte := BitVec 8

/-- A 16-bit quantity: a start register, a count, a value, a data word or a CRC (R9). -/
abbrev Word := BitVec 16

end Sys2Proof
end

