-- ==== Sys2Proof/Machine/Bytes.lean ====
section
/-! DEFINITION. Bytes and 16-bit values: the notation of spec/00_scope.md R10 and R12. -/

namespace Sys2Proof.Machine

/-- hi8(v) = v[15:8] (R10). -/
def hi8 (v : Word) : Byte := v.extractLsb' 8 8

/-- lo8(v) = v[7:0] (R10). -/
def lo8 (v : Word) : Byte := v.extractLsb' 0 8

/-- u16(h, l) = (zext_16(h) << 8) | zext_16(l) (R10). -/
def u16 (h l : Byte) : Word := (h.setWidth 16 <<< 8) ||| l.setWidth 16

/-- s[i], the byte at index i from 0 (R12). No rule reads beyond a sequence's end; the 0 stands
there only to make the function total. -/
def byteAt (s : List Byte) (i : Nat) : Byte := s.getD i 0

/-- The bytes of 16-bit values, each high byte first (spec/20_memory.md R52, spec/30_encoding.md R81). -/
def wordBytes : List Word → List Byte
  | [] => []
  | w :: ws => hi8 w :: lo8 w :: wordBytes ws

/-- A byte sequence with one bit changed: bit `k % 8` of byte `k / 8`. The single-bit corruption of
spec/40_checksum.md R107 and spec/42_frame_parse.md R159. -/
def flipBit (s : List Byte) (k : Nat) : List Byte :=
  s.modify (k / 8) fun b => b ^^^ (1#8 <<< (k % 8))

end Sys2Proof.Machine
end

