-- ==== Sys2Proof/Machine/Crc.lean ====
section
/-! DEFINITION. The checksum CRC16/Modbus: spec/40_checksum.md R100 to R103. The accumulator CRC_ACC
and the bit counter exist only while it is computed (spec/10_state.md R38; log 18). -/

namespace Sys2Proof.Machine

/-- One bit step (R102): shift right by one, and exclusive-or 0xA001 in when the bit shifted out
was 1. -/
def crcBit (acc : Word) : Word :=
  if acc.getLsbD 0 then (acc >>> 1) ^^^ 0xA001#16 else acc >>> 1

/-- `n` bit steps. The bit test stands outside the recursive call so that each step is evaluated
before the next; `crcBits_succ` says that it is `crcBit` repeated. -/
def crcBits : Nat → Word → Word
  | 0, acc => acc
  | n + 1, acc =>
    if acc.getLsbD 0 then crcBits n ((acc >>> 1) ^^^ 0xA001#16) else crcBits n (acc >>> 1)

/-- One byte step (R101): fold the byte into bits 7:0, then eight bit steps. -/
def crcByte (acc : Word) (b : Byte) : Word := crcBits 8 (acc ^^^ b.setWidth 16)

/-- crc16(s) (R100, R103): seed 0xFFFF, one byte step per byte, no final step. -/
def crc16 (s : List Byte) : Word := s.foldl crcByte 0xFFFF#16

/-- The trailer of a frame: "crcLo, crcHi" (spec/30_encoding.md R80). -/
def trailer (c : Word) : List Byte := [lo8 c, hi8 c]

/-- A body with its correct trailer appended (spec/30_encoding.md R75 to R78). -/
def withTrailer (body : List Byte) : List Byte := body ++ trailer (crc16 body)

/-- The first six bytes of a request frame (spec/30_encoding.md R75, R76, R81). -/
def requestBody (addr fc : Byte) (start cnt : Word) : List Byte :=
  [addr, fc, hi8 start, lo8 start, hi8 cnt, lo8 cnt]

/-- A request frame (R75 with fc 3 or 4, R76 with fc 6). -/
def requestFrame (addr fc : Byte) (start cnt : Word) : List Byte :=
  withTrailer (requestBody addr fc start cnt)

/-- A well-formed read response (R77): address, function, byte count 2N, the words high byte first,
the trailer. -/
def readResponse (addr fc : Byte) (words : List Word) : List Byte :=
  withTrailer (addr :: fc :: BitVec.ofNat 8 (2 * words.length) :: wordBytes words)

end Sys2Proof.Machine
end

