-- ==== Sys2Proof/Config.lean ====
section
/-! DEFINITION. What an implementation fixes (spec/00_scope.md R7), this block's values of it, and
the free value of the bytes the spec leaves unspecified at reset (spec/70_reset_and_hazards.md R196). -/

namespace Sys2Proof

/-- The codes LENGTH_ERROR_CODE and ECHO_ERROR_CODE range over (R7: "may each be any of the codes
CrcMismatch, AddressMismatch, FunctionMismatch or ByteCountMismatch"). -/
inductive MismatchCode where
  | crcMismatch
  | addressMismatch
  | functionMismatch
  | byteCountMismatch
  deriving DecidableEq, Repr

/-- The implementation parameters of R7, under the spec's own names. -/
structure Params where
  /-- FRAME_MAX: capacity of IN_BUF in bytes, and the largest frame a command can consume. -/
  frameMax : Nat
  /-- LENGTH_ERROR_CODE: the code of a parse command's failed length check. -/
  lengthErrorCode : MismatchCode
  /-- ECHO_ERROR_CODE: the code of PARSE_WRITE_SINGLE when bytes 2 to 5 do not echo. -/
  echoErrorCode : MismatchCode
  /-- STRICT_RANGE: builds also reject addr above 247, and BUILD_READ count above 125. -/
  strictRange : Bool
  /-- REJECT_ZERO_WRITE_VALUE: BUILD_WRITE_SINGLE rejects value 0. -/
  rejectZeroWriteValue : Bool
  deriving DecidableEq, Repr

/-- R7: "FRAME_MAX may be any value from 8 to 256". -/
def Params.wf (p : Params) : Bool := decide (8 ≤ p.frameMax) && decide (p.frameMax ≤ 256)

/-- The values R7 fixes for this block. -/
def Params.block : Params where
  frameMax := 256
  lengthErrorCode := .byteCountMismatch
  echoErrorCode := .byteCountMismatch
  strictRange := false
  rejectZeroWriteValue := false

/-- WORDS_MAX = floor((FRAME_MAX - 5) / 2) (R8). -/
def Params.wordsMax (p : Params) : Nat := (p.frameMax - 5) / 2

/-- FREE VALUE (R196, U3, U4; log 7): the byte a buffer offset holds while nothing has written it
since reset. The first argument is the reset the machine last came out of (`State.draws`), the
second the offset: one draw per byte and per reset, under no law. No body, so nothing can be
proved of any value of it. -/
opaque Config.freeByte : Nat → Nat → BitVec 8

end Sys2Proof
end

