-- ==== Sys2Proof/Syntax.lean ====
section
/-! DEFINITION. The instructions: one constructor per row of spec/opcode_table.json. The first six
are command words (format cmd8, spec/30_encoding.md R70 to R72); the last five are the frame kinds
(formats rtu_frame8 and rtu_frame_var, R75 to R78), whose operands are the frame's fields. -/

namespace Sys2Proof

/-- One row of spec/opcode_table.json. A command word has no operand fields: "The operands are in
the operand registers" (R70). -/
inductive Instr where
  /-- CRC16, CMD byte 0x00 (R71, R105). -/
  | crc16
  /-- BUILD_READ, CMD byte 0x01 (R71, R120). -/
  | buildRead
  /-- BUILD_WRITE_SINGLE, CMD byte 0x02 (R71, R126). -/
  | buildWriteSingle
  /-- PARSE_READ, CMD byte 0x03 (R71, R140). -/
  | parseRead
  /-- PARSE_WRITE_SINGLE, CMD byte 0x04 (R71, R150). -/
  | parseWriteSingle
  /-- RESERVED_CMD, any CMD byte from 0x05 to 0xFF (R72). -/
  | reservedCmd (word : Byte)
  /-- READ_REQ_FC03: a read-holding-registers request frame (R75 with fc = 3). -/
  | readReqFc03 (addr : Byte) (start count : Word)
  /-- READ_REQ_FC04: a read-input-registers request frame (R75 with fc = 4). -/
  | readReqFc04 (addr : Byte) (start count : Word)
  /-- WRITE_SINGLE_REQ: a write-single-register request frame (R76). -/
  | writeSingleReq (addr : Byte) (start value : Word)
  /-- READ_RESP: a read response frame (R77). Every field is what the frame holds, right or wrong:
  PARSE_READ is what checks it (log 5). -/
  | readResp (addr fc byteCount : Byte) (words : List Word) (crc : Word)
  /-- WRITE_SINGLE_RESP: a write-single response frame (R78). Every field is what the frame holds
  (log 5). -/
  | writeSingleResp (addr fc : Byte) (reg value crc : Word)
  deriving DecidableEq, Repr

/-- Where an instruction's bytes stand. It tells apart byte sequences that are the same: "A
well-formed write-single response is therefore byte for byte the request frame" (R78; log 6). -/
inductive Port where
  /-- The one byte written to CMD (R70). -/
  | command
  /-- A frame asked of the builders (R75, R76). -/
  | request
  /-- A frame that arrives for the parsers, in IN_BUF (R77, R78). -/
  | response
  deriving DecidableEq, Repr

/-- Why bytes are no instruction. -/
inductive DecodeError where
  /-- A command word is exactly one byte (R70). -/
  | commandNotOneByte (length : Nat)
  /-- No frame kind of this port has this length (R75 to R78). -/
  | frameLength (length : Nat)
  /-- A request frame's trailer is not the checksum of its first six bytes (R75, R76). -/
  | requestTrailer
  /-- A request frame's function byte is none of 3, 4, 6 (R79). -/
  | requestFunction (fc : Byte)
  deriving DecidableEq, Repr

end Sys2Proof
end

