-- ==== Sys2Proof/WellFormed.lean ====
section
/-! DEFINITION. Which terms of `Instr` are instructions of the block. -/

namespace Sys2Proof

/-- A reserved command word is a byte from 0x05 to 0xFF (spec/30_encoding.md R72). A response frame
fits IN_BUF (spec/00_scope.md R8: at most WORDS_MAX words). Every other term is well formed, since
every field value is encodable (R22, R24, R25). -/
def Instr.wf : Instr → Bool
  | .crc16 => true
  | .buildRead => true
  | .buildWriteSingle => true
  | .parseRead => true
  | .parseWriteSingle => true
  | .reservedCmd word => decide (5 ≤ word.toNat)
  | .readReqFc03 _ _ _ => true
  | .readReqFc04 _ _ _ => true
  | .writeSingleReq _ _ _ => true
  | .readResp _ _ _ words _ => decide (words.length ≤ Params.block.wordsMax)
  | .writeSingleResp _ _ _ _ _ => true

end Sys2Proof
end

