-- ==== Sys2Proof/Decode.lean ====
section
/-! DEFINITION. Decoding, total on any bytes, and encoding: spec/30_encoding.md R70 to R72 and R75
to R82. -/

namespace Sys2Proof

open Sys2Proof.Machine

/-- The command a byte written to CMD encodes (R71, R72). -/
def decodeCommand (b : Byte) : Instr :=
  match b.toNat with
  | 0 => .crc16
  | 1 => .buildRead
  | 2 => .buildWriteSingle
  | 3 => .parseRead
  | 4 => .parseWriteSingle
  | _ => .reservedCmd b

/-- The request frame that bytes are (R75, R76): eight bytes, a correct trailer, a function byte the
block builds (R79). -/
def decodeRequest : List Byte → Except DecodeError Instr
  | [a, f, sHi, sLo, nHi, nLo, cLo, cHi] =>
    if u16 cHi cLo ≠ crc16 [a, f, sHi, sLo, nHi, nLo] then .error .requestTrailer
    else if f = 3 then .ok (.readReqFc03 a (u16 sHi sLo) (u16 nHi nLo))
    else if f = 4 then .ok (.readReqFc04 a (u16 sHi sLo) (u16 nHi nLo))
    else if f = 6 then .ok (.writeSingleReq a (u16 sHi sLo) (u16 nHi nLo))
    else .error (.requestFunction f)
  | bytes => .error (.frameLength bytes.length)

/-- The data words, high byte first, and the trailer, low byte first, that end a read response
(R77, R80, R81). -/
def splitWords : List Byte → Option (List Word × Word)
  | [cLo, cHi] => some ([], u16 cHi cLo)
  | h :: l :: rest => (splitWords rest).map fun wc => (u16 h l :: wc.1, wc.2)
  | _ => none

/-- The response frame that bytes are: eight bytes for R78, 5 + 2·N bytes, which is an odd number,
for R77, and no more than IN_BUF holds. -/
def decodeResponse (bytes : List Byte) : Except DecodeError Instr :=
  if Params.block.frameMax < bytes.length then .error (.frameLength bytes.length)
  else
    match bytes with
    | [a, f, rHi, rLo, vHi, vLo, cLo, cHi] =>
      .ok (.writeSingleResp a f (u16 rHi rLo) (u16 vHi vLo) (u16 cHi cLo))
    | a :: f :: n :: rest =>
      match splitWords rest with
      | some (words, crc) => .ok (.readResp a f n words crc)
      | none => .error (.frameLength bytes.length)
    | _ => .error (.frameLength bytes.length)

/-- The instruction that bytes at a port are, or why they are none. -/
def decode : Port → List Byte → Except DecodeError Instr
  | .command, [b] => .ok (decodeCommand b)
  | .command, bytes => .error (.commandNotOneByte bytes.length)
  | .request, bytes => decodeRequest bytes
  | .response, bytes => decodeResponse bytes

/-- The bytes of a response frame from its fields (R77). -/
def readRespBytes (addr fc byteCount : Byte) (words : List Word) (crc : Word) : List Byte :=
  addr :: fc :: byteCount :: (wordBytes words ++ trailer crc)

/-- The bytes of a write-single response frame from its fields (R78). -/
def writeSingleRespBytes (addr fc : Byte) (reg value crc : Word) : List Byte :=
  requestBody addr fc reg value ++ trailer crc

/-- The bytes of an instruction and the port they stand at (R71, R72, R75 to R78). -/
def encode : Instr → Port × List Byte
  | .crc16 => (.command, [0x00])
  | .buildRead => (.command, [0x01])
  | .buildWriteSingle => (.command, [0x02])
  | .parseRead => (.command, [0x03])
  | .parseWriteSingle => (.command, [0x04])
  | .reservedCmd word => (.command, [word])
  | .readReqFc03 addr start count => (.request, requestFrame addr 0x03 start count)
  | .readReqFc04 addr start count => (.request, requestFrame addr 0x04 start count)
  | .writeSingleReq addr start value => (.request, requestFrame addr 0x06 start value)
  | .readResp addr fc byteCount words crc =>
    (.response, readRespBytes addr fc byteCount words crc)
  | .writeSingleResp addr fc reg value crc =>
    (.response, writeSingleRespBytes addr fc reg value crc)

/-- The low `n` bytes of a number, the least significant first. -/
def bytesOfNat : Nat → Nat → List Byte
  | 0, _ => []
  | n + 1, w => BitVec.ofNat 8 w :: bytesOfNat n (w / 256)

/-- How many bytes a frame has whose bits in the table are `n` bytes: an odd number from 5 on is a
read response (R77) as it stands; any other is filled up to the eight bytes of the fixed frames. -/
def frameBytes (n : Nat) : Nat := if n % 2 = 1 ∧ 5 ≤ n then n else max 8 n

/-- Where the bits of a table row's number stand (log 6). Up to eight bits are the byte written to
CMD, the only word of the table that is an instruction by itself. More bits are a frame, byte 0 least
significant: a request frame if they are one, else a response frame. -/
def tableBytes (nbits w : Nat) : Port × List Byte :=
  if nbits ≤ 8 then (.command, [BitVec.ofNat 8 w])
  else
    let bytes := bytesOfNat (frameBytes ((nbits + 7) / 8)) w
    match decodeRequest bytes with
    | .ok _ => (.request, bytes)
    | .error _ => (.response, bytes)

/-- The instruction the decoder reads from a table row's number. -/
def decodeTableWord (nbits w : Nat) : Option Instr :=
  (decode (tableBytes nbits w).1 (tableBytes nbits w).2).toOption

end Sys2Proof
end

