-- ==== Sys2Proof/Machine/State.lean ====
section
/-! DEFINITION. The state of the block: the registers of spec/10_state.md R21 "and no others", the
three buffers as memory, and the host's accesses still to come; the state after reset (R41); the
reasons a step can stop. -/

namespace Sys2Proof.Machine

/-- The status codes of spec/60_exceptions.md R171. Codes 9 to 14 are reserved and have no name. -/
inductive StatusCode where
  | ok
  | invalidArgument
  | crcMismatch
  | addressMismatch
  | functionMismatch
  | byteCountMismatch
  | timeout
  | transportError
  | notInitialized
  | illegalCommand
  deriving DecidableEq, Repr

/-- What an offset of the register space names (spec/30_encoding.md R73). Buffer bytes carry their
index in their buffer; a WORDS_OUT byte carries its byte index, 2i or 2i + 1. -/
inductive Reg where
  | cmd
  | status
  | addr
  | fc
  | startHi
  | startLo
  | cntHi
  | cntLo
  | inLenHi
  | inLenLo
  | crcOutHi
  | crcOutLo
  | outLen
  | wordsLen
  | sentReq (k : Fin 6)
  | frameOut (k : Nat)
  | inBuf (k : Nat)
  | wordsOut (k : Nat)
  | reserved
  deriving DecidableEq, Repr

/-- One thing the host does to the block. A program is a list of these (spec/30_encoding.md R84,
R86; log 1). -/
inductive HostAction where
  /-- `WR off, v`, which is MemWrite(off, n, bytes). Only n = 1 exists (spec/20_memory.md R51). -/
  | write (off : Nat) (bytes : List Byte)
  /-- `RD off`, which is MemRead(off, n). Only n = 1 exists (R51). -/
  | read (off n : Nat)
  /-- `WR off, t`, where t is the byte the last `RD` returned: the second half of each line of
  COPY_SENT_REQ (R85; log 23). -/
  | writeBack (off : Nat)
  /-- The host statement that has the block build this request frame (R75, R76, R84, R85; log 3). -/
  | request (frame : List Byte)
  /-- The host statement that gives the block this response frame to check (R77, R78, R84; log 4). -/
  | response (frame : List Byte)
  /-- The reset event (spec/70_reset_and_hazards.md R190; log 16). -/
  | reset
  deriving DecidableEq, Repr

/-- The buffers' bytes: (offset, byte) pairs, offsets strictly rising. An offset that is not listed
has not been written since reset. -/
abbrev Memory := List Host.Cell

/-- The machine. -/
structure State where
  /-- CMD (R28). -/
  cmd : Byte
  /-- STATUS (R29): DONE is bit 7, bits 6:4 read 0, CODE is bits 3:0. -/
  status : Byte
  /-- ADDR (R22). -/
  addr : Byte
  /-- FC (R23). -/
  fc : Byte
  /-- START_HI (R24). -/
  startHi : Byte
  /-- START_LO (R24). -/
  startLo : Byte
  /-- CNT_HI (R25). -/
  cntHi : Byte
  /-- CNT_LO (R25). -/
  cntLo : Byte
  /-- IN_LEN_HI (R26). -/
  inLenHi : Byte
  /-- IN_LEN_LO (R26). -/
  inLenLo : Byte
  /-- SENT_REQ[0..5] (R27). -/
  sentReq : Vector Byte 6
  /-- CRC_OUT_HI (R30). -/
  crcOutHi : Byte
  /-- CRC_OUT_LO (R30). -/
  crcOutLo : Byte
  /-- OUT_LEN (R31). -/
  outLen : Byte
  /-- WORDS_LEN (R32). -/
  wordsLen : Byte
  /-- FRAME_OUT (R34), IN_BUF (R33) and WORDS_OUT (R35), each byte at its offset of R73. -/
  mem : Memory
  /-- The model's own: how many resets came before the one the machine last came out of. It is the
  argument of the free value `Config.freeByte` (log 8). -/
  draws : Nat
  /-- The model's own: the byte the host's last MemRead returned (log 9). -/
  readData : Byte
  /-- The model's own: the host's accesses still to come, the next one first (log 1). -/
  pending : List HostAction
  deriving DecidableEq, Repr

/-- The machine after power-up: every register at its value of spec/10_state.md R41, no buffer byte
written, and nothing for the host to do yet (log 1, 8, 9). No command runs (R192). -/
def State.reset : State where
  cmd := 0x00
  status := 0x00
  addr := 0x00
  fc := 0x00
  startHi := 0x00
  startLo := 0x00
  cntHi := 0x00
  cntLo := 0x00
  inLenHi := 0x00
  inLenLo := 0x00
  sentReq := Vector.replicate 6 0x00
  crcOutHi := 0x00
  crcOutLo := 0x00
  outLen := 0x00
  wordsLen := 0x00
  mem := []
  draws := 0
  readData := 0x00
  pending := []

/-- No fault exists: "The block never traps, vectors, halts or changes mode"
(spec/60_exceptions.md R170; log 17). -/
inductive Fault where
  deriving DecidableEq, Repr

/-- Why the interface refuses a host access. -/
inductive Refusal where
  /-- Raised by no arm of `exec` in this model: every row of the table has its meaning. Safe. -/
  | notModelled (mnemonic : String)
  /-- Raised by a host access whose width is not one byte: "A model refuses any access of another
  width" (spec/20_memory.md R51; log 10). Safe. -/
  | accessWidth (width : Nat)
  /-- Raised by a host access above 0x3FF: a model "refuses any offset above 0x3FF" (R51; log 10).
  Safe. -/
  | offsetOutOfSpace (off : Nat)
  /-- Raised by a frame statement whose bytes are no frame of the table (R75 to R78; log 11). Safe. -/
  | notAFrame (why : DecodeError)
  deriving DecidableEq, Repr

end Sys2Proof.Machine
end

