-- ==== Sys2Proof/Machine/Flags.lean ====
section
/-! DEFINITION. STATUS, "the block's only flag register" (spec/10_state.md R29, R37), and the numbers
of the status codes (spec/60_exceptions.md R171). -/

namespace Sys2Proof.Machine

/-- The number of a status code (R171). -/
def StatusCode.number : StatusCode → BitVec 4
  | .ok => 0
  | .invalidArgument => 1
  | .crcMismatch => 2
  | .addressMismatch => 3
  | .functionMismatch => 4
  | .byteCountMismatch => 5
  | .timeout => 6
  | .transportError => 7
  | .notInitialized => 8
  | .illegalCommand => 15

/-- The status code a parameter of spec/00_scope.md R7 stands for. -/
def mismatchStatus : MismatchCode → StatusCode
  | .crcMismatch => .crcMismatch
  | .addressMismatch => .addressMismatch
  | .functionMismatch => .functionMismatch
  | .byteCountMismatch => .byteCountMismatch

/-- 0x80 | code (spec/00_scope.md R14): DONE set, bits 6:4 zero, CODE the code. -/
def statusByte (code : StatusCode) : Byte := 0x80#8 ||| code.number.setWidth 8

/-- STATUS.DONE, bit 7 (R29). -/
def State.done (s : State) : Bool := s.status.getLsbD 7

/-- STATUS.RSV, bits 6:4 (R29). -/
def State.statusRsv (s : State) : BitVec 3 := s.status.extractLsb' 4 3

/-- STATUS.CODE, bits 3:0 (R29). -/
def State.code (s : State) : BitVec 4 := s.status.extractLsb' 0 4

end Sys2Proof.Machine
end

