-- ==== Sys2Proof/Machine/Memory.lean ====
section
/-! DEFINITION. The buffers as memory: reading and writing bytes by their offset of the register
space, in one canonical form (spec/20_memory.md R50, spec/30_encoding.md R73). -/

namespace Sys2Proof.Machine

/-- FRAME_OUT[0] stands at 0x018 (R73). -/
def frameOutBase : Nat := 0x018
/-- IN_BUF[0] stands at 0x100 (R73). -/
def inBufBase : Nat := 0x100
/-- The high byte of WORDS_OUT[0] stands at 0x200 (R73). -/
def wordsOutBase : Nat := 0x200

/-- The offsets that are bytes of a buffer, for the map of this block (R73). -/
def isBufferOffset (off : Nat) : Bool :=
  (decide (frameOutBase ≤ off) && decide (off < frameOutBase + 8)) ||
  (decide (inBufBase ≤ off) && decide (off < inBufBase + 256)) ||
  (decide (wordsOutBase ≤ off) && decide (off < wordsOutBase + 256))

/-- The byte written last at an offset; none where nothing has been written since reset. -/
def Memory.lookup : Memory → Nat → Option Byte
  | [], _ => none
  | (k, v) :: m, off => if k = off then some v else Memory.lookup m off

/-- Write one byte, keeping the offsets strictly rising. -/
def Memory.insert : Memory → Nat → Byte → Memory
  | [], off, b => [(off, b)]
  | (k, v) :: m, off, b =>
    if off < k then (off, b) :: (k, v) :: m
    else if k = off then (off, b) :: m
    else (k, v) :: Memory.insert m off b

/-- Write bytes at consecutive offsets. -/
def Memory.writeBytes (m : Memory) (off : Nat) : List Byte → Memory
  | [] => m
  | b :: bs => Memory.writeBytes (Memory.insert m off b) (off + 1) bs

/-- Canonical form (log 22): offsets strictly rising, each of them a buffer byte's. -/
abbrev Memory.wf (m : Memory) : Prop :=
  m.Pairwise (fun c d => c.1 < d.1) ∧ ∀ c ∈ m, isBufferOffset c.1 = true

/-- The byte a buffer offset holds: the one written last, or its free draw if none was since reset
(spec/70_reset_and_hazards.md R196: "The draw is fixed for the byte until the host writes it"). -/
def State.bufByte (s : State) (off : Nat) : Byte :=
  match Memory.lookup s.mem off with
  | some b => b
  | none => Config.freeByte s.draws off

end Sys2Proof.Machine
end

