-- ==== Sys2Proof/Machine/Operands.lean ====
section
/-! DEFINITION. Operands as a command reads them, and the results as the host reads them: the pairs
of spec/30_encoding.md R74, the input sequence IN(n) of spec/00_scope.md R12, and the buffers. -/

namespace Sys2Proof.Machine

/-- START = u16(x[START_HI], x[START_LO]) (R74). -/
def State.start (s : State) : Word := u16 s.startHi s.startLo

/-- CNT = u16(x[CNT_HI], x[CNT_LO]) (R74). -/
def State.cnt (s : State) : Word := u16 s.cntHi s.cntLo

/-- IN_LEN = u16(x[IN_LEN_HI], x[IN_LEN_LO]) (R74). -/
def State.inLen (s : State) : Word := u16 s.inLenHi s.inLenLo

/-- CRC_OUT = u16(x[CRC_OUT_HI], x[CRC_OUT_LO]) (spec/10_state.md R21, R30). -/
def State.crcOut (s : State) : Word := u16 s.crcOutHi s.crcOutLo

/-- `n` consecutive buffer bytes. -/
def State.bufBytes (s : State) : Nat → Nat → List Byte
  | _, 0 => []
  | off, n + 1 => s.bufByte off :: s.bufBytes (off + 1) n

/-- IN(n), the first n bytes of IN_BUF (spec/00_scope.md R12). -/
def State.input (s : State) (n : Nat) : List Byte := s.bufBytes inBufBase n

/-- The six bytes SENT_REQ[0..5] (spec/10_state.md R27). -/
def State.sentBytes (s : State) : List Byte := s.sentReq.toList

/-- The eight bytes FRAME_OUT[0..7] (spec/10_state.md R34). -/
def State.frameOut (s : State) : List Byte := s.bufBytes frameOutBase 8

/-- WORDS_OUT[i], its high byte at the lower offset (spec/10_state.md R35, spec/20_memory.md R52). -/
def State.wordOut (s : State) (i : Nat) : Word :=
  u16 (s.bufByte (wordsOutBase + 2 * i)) (s.bufByte (wordsOutBase + 2 * i + 1))

end Sys2Proof.Machine
end

