-- ==== Sys2Proof/Machine/Ops.lean ====
section
/-! DEFINITION. The shared operations: the register map (spec/30_encoding.md R73), the host's byte
read and byte write (spec/20_memory.md R54, R55), ending a command with a status code
(spec/00_scope.md R14), the writes the build and parse commands share, and the reset event
(spec/70_reset_and_hazards.md R190). -/

namespace Sys2Proof.Machine

/-- The offset of CMD (R73). -/
def cmdOffset : Nat := 0x000

/-- The registers at offsets 0x000 to 0x00D, in the order of R73. -/
def namedRegs : List Reg :=
  [.cmd, .status, .addr, .fc, .startHi, .startLo, .cntHi, .cntLo, .inLenHi, .inLenLo, .crcOutHi,
    .crcOutLo, .outLen, .wordsLen]

/-- The register map of R73: what each offset names. With a smaller FRAME_MAX the rest of the IN_BUF
window is reserved. -/
def regAt (p : Params) (off : Nat) : Reg :=
  if off < 0x00E then namedRegs.getD off .reserved
  else if h : 0x010 ≤ off ∧ off < 0x016 then .sentReq ⟨off - 0x010, by omega⟩
  else if frameOutBase ≤ off ∧ off < frameOutBase + 8 then .frameOut (off - frameOutBase)
  else if inBufBase ≤ off ∧ off < inBufBase + p.frameMax then .inBuf (off - inBufBase)
  else if wordsOutBase ≤ off ∧ off < wordsOutBase + 256 then .wordsOut (off - wordsOutBase)
  else .reserved

/-- What a named register or buffer byte holds; 0x00 for a reserved byte (R54, R57). -/
def State.readReg (s : State) : Reg → Byte
  | .cmd => s.cmd
  | .status => s.status
  | .addr => s.addr
  | .fc => s.fc
  | .startHi => s.startHi
  | .startLo => s.startLo
  | .cntHi => s.cntHi
  | .cntLo => s.cntLo
  | .inLenHi => s.inLenHi
  | .inLenLo => s.inLenLo
  | .crcOutHi => s.crcOutHi
  | .crcOutLo => s.crcOutLo
  | .outLen => s.outLen
  | .wordsLen => s.wordsLen
  | .sentReq k => s.sentReq[k]
  | .frameOut k => s.bufByte (frameOutBase + k)
  | .inBuf k => s.bufByte (inBufBase + k)
  | .wordsOut k => s.bufByte (wordsOutBase + k)
  | .reserved => 0x00

/-- What a host write of a byte stores (R55): at an RW register or an IN_BUF byte it stores the
byte; at a read-only or reserved one nothing. A write to CMD also runs the command, which
`performWrite` adds (R56). -/
def State.writeReg (s : State) (v : Byte) : Reg → State
  | .cmd => { s with cmd := v }
  | .status => s
  | .addr => { s with addr := v }
  | .fc => { s with fc := v }
  | .startHi => { s with startHi := v }
  | .startLo => { s with startLo := v }
  | .cntHi => { s with cntHi := v }
  | .cntLo => { s with cntLo := v }
  | .inLenHi => { s with inLenHi := v }
  | .inLenLo => { s with inLenLo := v }
  | .crcOutHi => s
  | .crcOutLo => s
  | .outLen => s
  | .wordsLen => s
  | .sentReq k => { s with sentReq := s.sentReq.set k v }
  | .frameOut _ => s
  | .inBuf k => { s with mem := Memory.insert s.mem (inBufBase + k) v }
  | .wordsOut _ => s
  | .reserved => s

/-- MemRead(off, 1) (R54). -/
def State.memRead (p : Params) (s : State) (off : Nat) : Byte := s.readReg (regAt p off)

/-- The store of MemWrite(off, 1, v) (R55). -/
def State.memStore (p : Params) (s : State) (off : Nat) (v : Byte) : State :=
  s.writeReg v (regAt p off)

/-- `raise Status(code)` of R14, and with `.ok` the end of a command that raises nothing: DONE and
CODE are written. It is what this block has in place of taking an exception (R170, R178). -/
def State.finish (s : State) (code : StatusCode) : State := { s with status := statusByte code }

/-- Write CRC_OUT (spec/10_state.md R30). -/
def State.setCrcOut (s : State) (c : Word) : State :=
  { s with crcOutHi := hi8 c, crcOutLo := lo8 c }

/-- A build succeeds with a frame (spec/41_frame_build.md R122). -/
def State.succeedBuild (s : State) (frame : List Byte) : State :=
  State.finish
    { s with
      mem := Memory.writeBytes s.mem frameOutBase frame
      outLen := 8
      crcOutHi := byteAt frame 7
      crcOutLo := byteAt frame 6 }
    .ok

/-- A build fails (spec/41_frame_build.md R123). -/
def State.failBuild (s : State) : State := State.finish { s with outLen := 0 } .invalidArgument

/-- PARSE_READ succeeds with words (spec/42_frame_parse.md R146). -/
def State.succeedRead (s : State) (words : List Word) : State :=
  State.finish
    { s with
      mem := Memory.writeBytes s.mem wordsOutBase (wordBytes words)
      wordsLen := BitVec.ofNat 8 words.length }
    .ok

/-- PARSE_READ fails with a code (spec/42_frame_parse.md R148). -/
def State.failRead (s : State) (code : StatusCode) : State :=
  State.finish { s with wordsLen := 0 } code

/-- The input sequence a host puts in place before a buffer-reading command (spec/30_encoding.md
R84): `WR 0x100+k, bk` for each k, then IN_LEN. A byte beyond IN_BUF would be stored nowhere (R55;
log 21). -/
def State.placeInput (s : State) (bytes : List Byte) : State :=
  { s with
    mem := Memory.writeBytes s.mem inBufBase (bytes.take Params.block.frameMax)
    inLenHi := hi8 (BitVec.ofNat 16 bytes.length)
    inLenLo := lo8 (BitVec.ofNat 16 bytes.length) }

/-- The reset event (R190): every register at its value of spec/10_state.md R41, the buffers
unspecified, which is a fresh draw for each of their bytes (log 16). What the host has read and has
still to do is the host's, and stays. -/
def State.resetEvent (s : State) : State :=
  { State.reset with draws := s.draws + 1, readData := s.readData, pending := s.pending }

end Sys2Proof.Machine
end

