-- ==== Sys2Proof/Machine/Checksum.lean ====
section
/-! DEFINITION. The CRC16 command: spec/40_checksum.md R105. -/

namespace Sys2Proof.Machine

/-- The pseudocode of R105, for any parameters. -/
def crc16Command (p : Params) (s : State) : State :=
  if p.frameMax < s.inLen.toNat then s.finish .illegalCommand
  else (s.setCrcOut (crc16 (s.input s.inLen.toNat))).finish .ok

/-- CRC16 (R105). -/
def execCrc16 (s : State) : Host.Outcome State Fault Refusal := .next (crc16Command Params.block s)

end Sys2Proof.Machine
end

