-- ==== Sys2Proof/Machine/FrameBuild.lean ====
section
/-! DEFINITION. The request frame builders BUILD_READ and BUILD_WRITE_SINGLE:
spec/41_frame_build.md R120 to R128. -/

namespace Sys2Proof.Machine

/-- read_args_ok(a, f, n) (R121, R124). -/
def readArgsOk (p : Params) (a f : Byte) (n : Word) : Bool :=
  decide (n ≠ 0) && decide (a ≠ 0) && (decide (f = 3) || decide (f = 4)) &&
  (!p.strictRange || (decide (a.toNat ≤ 247) && decide (n.toNat ≤ 125)))

/-- write_args_ok(a, v) (R127, R128, R124). -/
def writeArgsOk (p : Params) (a : Byte) (v : Word) : Bool :=
  decide (a ≠ 0) && (!p.rejectZeroWriteValue || decide (v ≠ 0)) &&
  (!p.strictRange || decide (a.toNat ≤ 247))

/-- The pseudocode of R120, for any parameters. -/
def buildReadCommand (p : Params) (s : State) : State :=
  if readArgsOk p s.addr s.fc s.cnt then
    s.succeedBuild (requestFrame s.addr s.fc s.start s.cnt)
  else s.failBuild

/-- The pseudocode of R126, for any parameters. FC is not read: byte 1 is 0x06. -/
def buildWriteSingleCommand (p : Params) (s : State) : State :=
  if writeArgsOk p s.addr s.cnt then
    s.succeedBuild (requestFrame s.addr 0x06 s.start s.cnt)
  else s.failBuild

/-- BUILD_READ (R120). -/
def execBuildRead (s : State) : Host.Outcome State Fault Refusal :=
  .next (buildReadCommand Params.block s)

/-- BUILD_WRITE_SINGLE (R126). -/
def execBuildWriteSingle (s : State) : Host.Outcome State Fault Refusal :=
  .next (buildWriteSingleCommand Params.block s)

end Sys2Proof.Machine
end

