-- ==== Sys2Proof/Machine/FrameParse.lean ====
section
/-! DEFINITION. The response frame parsers PARSE_READ and PARSE_WRITE_SINGLE:
spec/42_frame_parse.md R140 to R157. -/

namespace Sys2Proof.Machine

/-- The checks of PARSE_READ on a response `r`, in the order of R147: length (R141), CRC (R142),
address (R143), function (R144), byte count (R145). Lengths are exact integers (R11). -/
def checkRead (p : Params) (r : List Byte) (ea ef : Byte) (n : Nat) : StatusCode :=
  if r.length ≠ 5 + 2 * n then mismatchStatus p.lengthErrorCode
  else if crc16 (r.take (r.length - 2)) ≠ u16 (byteAt r (r.length - 1)) (byteAt r (r.length - 2)) then
    .crcMismatch
  else if byteAt r 0 ≠ ea then .addressMismatch
  else if byteAt r 1 ≠ ef then .functionMismatch
  else if (byteAt r 2).toNat ≠ 2 * n then .byteCountMismatch
  else .ok

/-- The `n` words from index `i` on of a read response: word i is u16(r[3+2i], r[4+2i]) (R146). -/
def responseWords (r : List Byte) : Nat → Nat → List Word
  | _, 0 => []
  | i, n + 1 => u16 (byteAt r (3 + 2 * i)) (byteAt r (4 + 2 * i)) :: responseWords r (i + 1) n

/-- The pseudocode of R140, for any parameters. -/
def parseReadCommand (p : Params) (s : State) : State :=
  if p.frameMax < s.inLen.toNat then s.failRead .illegalCommand
  else
    match checkRead p (s.input s.inLen.toNat) s.addr s.fc s.cnt.toNat with
    | .ok => s.succeedRead (responseWords (s.input s.inLen.toNat) 0 s.cnt.toNat)
    | code => s.failRead code

/-- The checks of PARSE_WRITE_SINGLE on a response `r` against the sent request `q`, in the order of
R156: length (R151), CRC (R152), address (R153), function (R154), register and value (R155). -/
def checkWriteSingle (p : Params) (r q : List Byte) : StatusCode :=
  if r.length ≠ 8 then mismatchStatus p.lengthErrorCode
  else if crc16 (r.take 6) ≠ u16 (byteAt r 7) (byteAt r 6) then .crcMismatch
  else if byteAt r 0 ≠ byteAt q 0 then .addressMismatch
  else if byteAt r 1 ≠ byteAt q 1 then .functionMismatch
  else if (r.take 6).drop 2 ≠ (q.take 6).drop 2 then mismatchStatus p.echoErrorCode
  else .ok

/-- The pseudocode of R150, for any parameters. -/
def parseWriteSingleCommand (p : Params) (s : State) : State :=
  if p.frameMax < s.inLen.toNat then s.finish .illegalCommand
  else s.finish (checkWriteSingle p (s.input s.inLen.toNat) s.sentBytes)

/-- PARSE_READ (R140). -/
def execParseRead (s : State) : Host.Outcome State Fault Refusal :=
  .next (parseReadCommand Params.block s)

/-- PARSE_WRITE_SINGLE (R150). -/
def execParseWriteSingle (s : State) : Host.Outcome State Fault Refusal :=
  .next (parseWriteSingleCommand Params.block s)

end Sys2Proof.Machine
end

