-- ==== Sys2Proof/Machine/Frames.lean ====
section
/-! DEFINITION. The frame kinds of spec/30_encoding.md R75 to R78 as the host statements that have
the block build or check them (R84, R85; log 3, log 4). Each leaves what its expansion of byte
writes leaves, with CMD holding the command word that the last of them wrote. -/

namespace Sys2Proof.Machine

/-- The operand writes of `BUILD_READ a, f, s, n` and the command they end in (R84). -/
def requestRead (a f : Byte) (start count : Word) (s : State) : State :=
  buildReadCommand Params.block
    { s with
      addr := a
      fc := f
      startHi := hi8 start
      startLo := lo8 start
      cntHi := hi8 count
      cntLo := lo8 count
      cmd := 0x01 }

/-- READ_REQ_FC03 (R75): `READ_HOLDING_REQ addr, start, count` of R85. -/
def execReadReqFc03 (addr : Byte) (start count : Word) (s : State) :
    Host.Outcome State Fault Refusal :=
  .next (requestRead addr 0x03 start count s)

/-- READ_REQ_FC04 (R75): `READ_INPUT_REQ addr, start, count` of R85. -/
def execReadReqFc04 (addr : Byte) (start count : Word) (s : State) :
    Host.Outcome State Fault Refusal :=
  .next (requestRead addr 0x04 start count s)

/-- WRITE_SINGLE_REQ (R76): `WRITE_SINGLE_REQ addr, start, value` of R85, which is
`BUILD_WRITE_SINGLE addr, start, value`. It does not write FC (R84). -/
def execWriteSingleReq (addr : Byte) (start value : Word) (s : State) :
    Host.Outcome State Fault Refusal :=
  .next (buildWriteSingleCommand Params.block
    { s with
      addr := addr
      startHi := hi8 start
      startLo := lo8 start
      cntHi := hi8 value
      cntLo := lo8 value
      cmd := 0x02 })

/-- READ_RESP (R77): the frame is placed in IN_BUF and IN_LEN, and PARSE_READ checks it against
ADDR, FC and CNT as they stand (R140). -/
def execReadResp (addr fc byteCount : Byte) (words : List Word) (crc : Word) (s : State) :
    Host.Outcome State Fault Refusal :=
  .next (parseReadCommand Params.block
    { s.placeInput (addr :: fc :: byteCount :: (wordBytes words ++ trailer crc)) with cmd := 0x03 })

/-- WRITE_SINGLE_RESP (R78): the frame is placed in IN_BUF and IN_LEN, and PARSE_WRITE_SINGLE checks
it against SENT_REQ as it stands (R150). -/
def execWriteSingleResp (addr fc : Byte) (reg value crc : Word) (s : State) :
    Host.Outcome State Fault Refusal :=
  .next (parseWriteSingleCommand Params.block
    { s.placeInput (requestBody addr fc reg value ++ trailer crc) with cmd := 0x04 })

end Sys2Proof.Machine
end

