-- ==== Sys2Proof/Machine/Reserved.lean ====
section
/-! DEFINITION. The reserved command words: spec/30_encoding.md R72, spec/60_exceptions.md R173. -/

namespace Sys2Proof.Machine

/-- RESERVED_CMD (R72): no operand is read, no result is written, and the command ends with
IllegalCommand, whichever the word. -/
def execReservedCmd (_word : Byte) (s : State) : Host.Outcome State Fault Refusal :=
  .next (s.finish .illegalCommand)

end Sys2Proof.Machine
end

