-- ==== Sys2Proof/Machine/Dispatch.lean ====
section
/-! DEFINITION. The meaning of each instruction: one arm per row of spec/opcode_table.json. -/

namespace Sys2Proof.Machine

def exec (i : Instr) (s : State) : Host.Outcome State Fault Refusal :=
  match i with
  | .crc16 => Sys2Proof.Machine.execCrc16 s
  | .buildRead => Sys2Proof.Machine.execBuildRead s
  | .buildWriteSingle => Sys2Proof.Machine.execBuildWriteSingle s
  | .parseRead => Sys2Proof.Machine.execParseRead s
  | .parseWriteSingle => Sys2Proof.Machine.execParseWriteSingle s
  | .reservedCmd word => Sys2Proof.Machine.execReservedCmd word s
  | .readReqFc03 addr start count => Sys2Proof.Machine.execReadReqFc03 addr start count s
  | .readReqFc04 addr start count => Sys2Proof.Machine.execReadReqFc04 addr start count s
  | .writeSingleReq addr start value => Sys2Proof.Machine.execWriteSingleReq addr start value s
  | .readResp addr fc byteCount words crc => Sys2Proof.Machine.execReadResp addr fc byteCount words crc s
  | .writeSingleResp addr fc reg value crc => Sys2Proof.Machine.execWriteSingleResp addr fc reg value crc s

end Sys2Proof.Machine
end

