-- ==== Sys2Proof/Machine/Access.lean ====
section
/-! DEFINITION. What one entry of the host's list does: a byte access of the register space
(spec/20_memory.md R51, R54 to R57), a frame statement, or reset. -/

namespace Sys2Proof.Machine

/-- The last offset of the register space (R50). -/
def lastOffset : Nat := 0x3FF

/-- The bytes an entry hands to the decoder, and their port: the byte of a write to CMD (R56), or a
frame. No other access is an instruction. -/
def HostAction.instrBytes (readData : Byte) : HostAction → Option (Port × List Byte)
  | .write off [v] => if off = cmdOffset then some (.command, [v]) else none
  | .write _ _ => none
  | .read _ _ => none
  | .writeBack off => if off = cmdOffset then some (.command, [readData]) else none
  | .request frame => some (.request, frame)
  | .response frame => some (.response, frame)
  | .reset => none

/-- Run the instruction that bytes are. -/
def runBytes (port : Port) (bytes : List Byte) (s : State) : Host.Outcome State Fault Refusal :=
  match decode port bytes with
  | .ok i => exec i s
  | .error why => .refused (.notAFrame why)

/-- MemWrite(off, n, bytes): another width than one byte and an offset beyond the space are refused
(R51); the byte is stored (R55); a write to CMD then runs the command it encodes (R56). -/
def performWrite (off : Nat) (bytes : List Byte) (s : State) : Host.Outcome State Fault Refusal :=
  match bytes with
  | [v] =>
    if lastOffset < off then .refused (.offsetOutOfSpace off)
    else if off = cmdOffset then runBytes .command [v] (s.memStore Params.block off v)
    else .next (s.memStore Params.block off v)
  | _ => .refused (.accessWidth bytes.length)

/-- MemRead(off, n): the byte goes to the host, and the block does not change (R54). -/
def performRead (off n : Nat) (s : State) : Host.Outcome State Fault Refusal :=
  if n ≠ 1 then .refused (.accessWidth n)
  else if lastOffset < off then .refused (.offsetOutOfSpace off)
  else .next { s with readData := s.memRead Params.block off }

/-- One entry of the host's list. -/
def perform (a : HostAction) (s : State) : Host.Outcome State Fault Refusal :=
  match a with
  | .write off bytes => performWrite off bytes s
  | .read off n => performRead off n s
  | .writeBack off => performWrite off [s.readData] s
  | .request frame => runBytes .request frame s
  | .response frame => runBytes .response frame s
  | .reset => .next s.resetEvent

/-- The entry that makes the machine fetch bytes at a port next. -/
def fetchAction : Port × List Byte → HostAction
  | (.command, bytes) => .write cmdOffset bytes
  | (.request, bytes) => .request bytes
  | (.response, bytes) => .response bytes

end Sys2Proof.Machine
end

