-- ==== Sys2Proof/Machine/Step.lean ====
section
/-! DEFINITION. One step: the host's next access, whole (spec/00_scope.md R6, spec/20_memory.md R59).
Where the host has nothing to do the block does nothing (spec/70_reset_and_hazards.md R191; log 2). -/

namespace Sys2Proof.Machine

/-- One step of the machine. -/
def step (s : State) : Host.Outcome State Fault Refusal :=
  match s.pending with
  | [] => .next s
  | a :: rest => perform a { s with pending := rest }

/-- The state with an instruction put in front of the host's list, so that the next step fetches and
runs it (log 1, log 6). -/
def State.withFetchWord (s : State) (nbits w : Nat) : State :=
  { s with pending := fetchAction (tableBytes nbits w) :: s.pending }

end Sys2Proof.Machine
end

