-- ==== Sys2Proof/Machine/HostProgram.lean ====
section
/-! DEFINITION. The host's statements and pseudo-instructions, and their expansions into byte
accesses: spec/30_encoding.md R84 to R86. -/

namespace Sys2Proof.Machine

/-- A statement of a host program (R84, R85). -/
inductive Statement where
  /-- `WR off, v`. -/
  | wr (off : Nat) (v : Byte)
  /-- `RD off`. -/
  | rd (off : Nat)
  /-- `CRC16 [b0..bL-1]`. -/
  | crc16 (bytes : List Byte)
  /-- `BUILD_READ a, f, s, n`. -/
  | buildRead (a f : Byte) (s n : Word)
  /-- `BUILD_WRITE_SINGLE a, s, v`. -/
  | buildWriteSingle (a : Byte) (s v : Word)
  /-- `PARSE_READ [b0..bL-1], a, f, n`. -/
  | parseRead (bytes : List Byte) (a f : Byte) (n : Word)
  /-- `PARSE_WRITE_SINGLE [b0..bL-1], [r0..r5]`. -/
  | parseWriteSingle (bytes req : List Byte)
  /-- `READ_HOLDING_REQ a, s, n`. -/
  | readHoldingReq (a : Byte) (s n : Word)
  /-- `READ_INPUT_REQ a, s, n`. -/
  | readInputReq (a : Byte) (s n : Word)
  /-- `WRITE_SINGLE_REQ a, s, v`. -/
  | writeSingleReq (a : Byte) (s v : Word)
  /-- `PING_ATTEMPT a, f, r`. -/
  | pingAttempt (a f : Byte) (r : Word)
  /-- `COPY_SENT_REQ`. -/
  | copySentReq
  deriving DecidableEq, Repr

/-- One byte write. -/
def wr (off : Nat) (v : Byte) : HostAction := .write off [v]

/-- `WR off+k, bk` for each byte of a sequence. -/
def wrBytes (off : Nat) : List Byte → List HostAction
  | [] => []
  | b :: bs => wr off b :: wrBytes (off + 1) bs

/-- `WR 0x100+k, bk` for each k, then `WR 0x008, hi8(L)` and `WR 0x009, lo8(L)` (R84). -/
def wrInput (bytes : List Byte) : List HostAction :=
  wrBytes 0x100 bytes ++
    [wr 0x008 (hi8 (BitVec.ofNat 16 bytes.length)), wr 0x009 (lo8 (BitVec.ofNat 16 bytes.length))]

/-- The expansion of `BUILD_READ a, f, s, n` (R84). -/
def expandBuildRead (a f : Byte) (s n : Word) : List HostAction :=
  [wr 0x002 a, wr 0x003 f, wr 0x004 (hi8 s), wr 0x005 (lo8 s), wr 0x006 (hi8 n), wr 0x007 (lo8 n),
    wr 0x000 0x01]

/-- The expansion of `BUILD_WRITE_SINGLE a, s, v` (R84). -/
def expandBuildWriteSingle (a : Byte) (s v : Word) : List HostAction :=
  [wr 0x002 a, wr 0x004 (hi8 s), wr 0x005 (lo8 s), wr 0x006 (hi8 v), wr 0x007 (lo8 v), wr 0x000 0x02]

/-- The expansion of a statement (R84, R85). -/
def Statement.expand : Statement → List HostAction
  | .wr off v => [Machine.wr off v]
  | .rd off => [.read off 1]
  | .crc16 bytes => wrInput bytes ++ [Machine.wr 0x000 0x00]
  | .buildRead a f s n => expandBuildRead a f s n
  | .buildWriteSingle a s v => expandBuildWriteSingle a s v
  | .parseRead bytes a f n =>
    wrInput bytes ++
      [Machine.wr 0x002 a, Machine.wr 0x003 f, Machine.wr 0x006 (hi8 n), Machine.wr 0x007 (lo8 n),
        Machine.wr 0x000 0x03]
  | .parseWriteSingle bytes req =>
    wrInput bytes ++ wrBytes 0x010 (req.take 6) ++ [Machine.wr 0x000 0x04]
  | .readHoldingReq a s n => expandBuildRead a 0x03 s n
  | .readInputReq a s n => expandBuildRead a 0x04 s n
  | .writeSingleReq a s v => expandBuildWriteSingle a s v
  | .pingAttempt a f r => expandBuildRead a f r 0x0001
  | .copySentReq =>
    [.read 0x018 1, .writeBack 0x010, .read 0x019 1, .writeBack 0x011, .read 0x01A 1,
      .writeBack 0x012, .read 0x01B 1, .writeBack 0x013, .read 0x01C 1, .writeBack 0x014,
      .read 0x01D 1, .writeBack 0x015]

/-- The accesses of a program, in order (R86). -/
def expandProgram : List Statement → List HostAction
  | [] => []
  | t :: ts => t.expand ++ expandProgram ts

/-- The run of PING_ATTEMPT statements R85 gives: the hinted two when a hint exists, then the fixed
four. Which of them the Master issues is the Master's business. -/
def pingSequence (a : Byte) (hint : Option Byte) : List Statement :=
  (match hint with
    | some f => [.pingAttempt a f 0x0000, .pingAttempt a f 0x0001]
    | none => []) ++
  [.pingAttempt a 0x03 0x0000, .pingAttempt a 0x04 0x0000, .pingAttempt a 0x04 0x0001,
    .pingAttempt a 0x03 0x0001]

end Sys2Proof.Machine
end

