-- ==== Sys2Proof/Safety.lean ====
section
/-! DEFINITION. The terms claims are made in: what the interface admits, what a step leaves
unchanged, and the invariant of the block's results. -/

namespace Sys2Proof.Machine

/-- `k` steps, stopping at the first refusal. -/
def run : Nat → State → Host.Outcome State Fault Refusal
  | 0, s => .next s
  | k + 1, s =>
    match step s with
    | .next t => run k t
    | .fault why => .fault why
    | .refused why => .refused why

/-- The host accesses the interface admits (spec/20_memory.md R51): one byte wide, inside the
register space; and frame statements whose bytes are a frame of the table. -/
def HostAction.admitted : HostAction → Bool
  | .write off bytes => decide (bytes.length = 1) && decide (off ≤ lastOffset)
  | .read off n => decide (n = 1) && decide (off ≤ lastOffset)
  | .writeBack off => decide (off ≤ lastOffset)
  | .request frame => (decodeRequest frame).toBool
  | .response frame => (decodeResponse frame).toBool
  | .reset => true

/-- Every access still to come is one the interface admits. -/
def State.admitted (s : State) : Bool := s.pending.all HostAction.admitted

/-- The frame of a step: every byte of the register space but those at the `written` offsets reads
in `t` as it reads in `s`, and so do the model's own fields. The register space holds every register
and buffer of the block (spec/20_memory.md R50), so nothing of the block is left out. -/
def keepsAllBut (written : Nat → Prop) (s t : State) : Prop :=
  (∀ off, ¬ written off → t.memRead Params.block off = s.memRead Params.block off) ∧
  t.draws = s.draws ∧ t.readData = s.readData ∧ t.pending = s.pending

/-- The offset of STATUS (spec/30_encoding.md R73). -/
def atStatus (off : Nat) : Prop := off = 0x001

/-- The offsets of CRC_OUT_HI and CRC_OUT_LO (R73). -/
def atCrcOut (off : Nat) : Prop := off = 0x00A ∨ off = 0x00B

/-- The offset of OUT_LEN (R73). -/
def atOutLen (off : Nat) : Prop := off = 0x00C

/-- The offset of WORDS_LEN (R73). -/
def atWordsLen (off : Nat) : Prop := off = 0x00D

/-- The offsets of FRAME_OUT[0..7] (R73). -/
def atFrameOut (off : Nat) : Prop := 0x018 ≤ off ∧ off < 0x020

/-- The offsets of WORDS_OUT[0..n-1] (R73). -/
def atWordsOut (n : Nat) (off : Nat) : Prop := 0x200 ≤ off ∧ off < 0x200 + 2 * n

/-- The offsets of IN_BUF[0..n-1] (R73). -/
def atInBuf (n : Nat) (off : Nat) : Prop := 0x100 ≤ off ∧ off < 0x100 + n

/-- The offsets of ADDR, START and CNT (R73). -/
def atAddrStartCnt (off : Nat) : Prop := off = 0x002 ∨ (0x004 ≤ off ∧ off ≤ 0x007)

/-- The offset of FC (R73). -/
def atFc (off : Nat) : Prop := off = 0x003

/-- The offsets of IN_LEN_HI and IN_LEN_LO (R73). -/
def atInLen (off : Nat) : Prop := off = 0x008 ∨ off = 0x009

/-- The offset of CMD (R73). -/
def atCmd (off : Nat) : Prop := off = 0x000

/-- The STATUS byte of each code LENGTH_ERROR_CODE and ECHO_ERROR_CODE range over
(spec/00_scope.md R7), with the numbers of spec/60_exceptions.md R171. -/
def mismatchByte : MismatchCode → Byte
  | .crcMismatch => 0x82
  | .addressMismatch => 0x83
  | .functionMismatch => 0x84
  | .byteCountMismatch => 0x85

/-- The codes this block writes (spec/60_exceptions.md R172). -/
def writtenCodes : List StatusCode :=
  [.ok, .invalidArgument, .crcMismatch, .addressMismatch, .functionMismatch, .byteCountMismatch,
    .illegalCommand]

/-- The codes each command writes: the table of spec/60_exceptions.md R172. -/
def codesOf : Instr → List StatusCode
  | .crc16 => [.ok, .illegalCommand]
  | .buildRead => [.ok, .invalidArgument]
  | .buildWriteSingle => [.ok, .invalidArgument]
  | .parseRead =>
    [.ok, .crcMismatch, .addressMismatch, .functionMismatch, .byteCountMismatch, .illegalCommand]
  | .parseWriteSingle =>
    [.ok, .crcMismatch, .addressMismatch, .functionMismatch, .byteCountMismatch, .illegalCommand]
  | .reservedCmd _ => [.illegalCommand]
  | .readReqFc03 _ _ _ => [.ok, .invalidArgument]
  | .readReqFc04 _ _ _ => [.ok, .invalidArgument]
  | .writeSingleReq _ _ _ => [.ok, .invalidArgument]
  | .readResp _ _ _ _ _ =>
    [.ok, .crcMismatch, .addressMismatch, .functionMismatch, .byteCountMismatch, .illegalCommand]
  | .writeSingleResp _ _ _ _ _ =>
    [.ok, .crcMismatch, .addressMismatch, .functionMismatch, .byteCountMismatch, .illegalCommand]

/-- Something has written the byte at a buffer offset since reset. -/
def State.written (s : State) (off : Nat) : Prop := (Memory.lookup s.mem off).isSome = true

/-- STATUS holds its reset value or what a command wrote (spec/10_state.md R29). -/
def State.statusInv (s : State) : Prop :=
  s.status = 0x00 ∨ ∃ code ∈ writtenCodes, s.status = statusByte code

/-- OUT_LEN is 0 or 8 (R31), and when it is 8 FRAME_OUT holds a request frame of R75 or R76 that the
argument checks of spec/41_frame_build.md R121 and R127 pass, every byte of it written. -/
def State.frameInv (s : State) : Prop :=
  s.outLen = 0 ∨
  (s.outLen = 8 ∧ (∀ k < 8, s.written (frameOutBase + k)) ∧
    ∃ a f start cnt, s.frameOut = requestFrame a f start cnt ∧ a ≠ 0 ∧
      (f = 6 ∨ ((f = 3 ∨ f = 4) ∧ cnt ≠ 0)))

/-- WORDS_LEN is at most WORDS_MAX (R32), and the words it counts are all written. -/
def State.wordsInv (s : State) : Prop :=
  s.wordsLen.toNat ≤ Params.block.wordsMax ∧
  ∀ k < 2 * s.wordsLen.toNat, s.written (wordsOutBase + k)

/-- The invariant of the block: memory is canonical, STATUS is legal, and whatever OUT_LEN and
WORDS_LEN mark valid is a result and no free draw (spec/93_implementation_defined.md U4: "No valid
result reads them"). -/
structure State.Inv (s : State) : Prop where
  memWf : Memory.wf s.mem
  status : s.statusInv
  frame : s.frameInv
  words : s.wordsInv

end Sys2Proof.Machine
end

