-- ==== Sys2Proof/Certificates/Slice0/Obligations.lean ====
section
/-! DEFINITION. The statements for the provers. Offsets are those of spec/30_encoding.md R73; 256 is
FRAME_MAX and 125 WORDS_MAX of this block (spec/00_scope.md R7, R8). -/

open Sys2Proof Sys2Proof.Machine

/-! ### Encoding -/

/-- R71: the five command words, and a word is legal exactly when RSV = 0 and OP is at most 4. -/
def Obligations.CommandWordsDecode : Prop :=
  decode .command [0x00] = .ok .crc16 ∧
  decode .command [0x01] = .ok .buildRead ∧
  decode .command [0x02] = .ok .buildWriteSingle ∧
  decode .command [0x03] = .ok .parseRead ∧
  decode .command [0x04] = .ok .parseWriteSingle ∧
  ∀ b : Byte,
    (∀ w, decode .command [b] ≠ .ok (.reservedCmd w)) ↔
      (b.extractLsb' 3 5 = 0 ∧ (b.extractLsb' 0 3).toNat ≤ 4)

/-- The frames of vectors V11, V12, V24, V31 and V52, written out byte by byte, decode to the frame
kinds and fields R75 to R78 give them. -/
def Obligations.SpecFramesDecode : Prop :=
  decode .request [0x01, 0x03, 0x00, 0x00, 0x00, 0x01, 0x84, 0x0A] =
    .ok (.readReqFc03 0x01 0x0000 0x0001) ∧
  decode .request [0x01, 0x04, 0x00, 0x00, 0x00, 0x01, 0x31, 0xCA] =
    .ok (.readReqFc04 0x01 0x0000 0x0001) ∧
  decode .request [0x11, 0x06, 0x00, 0x01, 0x00, 0x03, 0x9A, 0x9B] =
    .ok (.writeSingleReq 0x11 0x0001 0x0003) ∧
  decode .response [0x01, 0x03, 0x04, 0x12, 0x34, 0xAB, 0xCD, 0x00, 0x20] =
    .ok (.readResp 0x01 0x03 0x04 [0x1234, 0xABCD] 0x2000) ∧
  decode .response [0x01, 0x06, 0x00, 0x01, 0x00, 0x03, 0x98, 0x0B] =
    .ok (.writeSingleResp 0x01 0x06 0x0001 0x0003 0x0B98)

/-- Decode and encode agree on every well-formed instruction, with every operand at every value. -/
def Obligations.DecodeEncodeRoundTrip : Prop :=
  ∀ i : Instr, i.wf = true → decode (encode i).1 (encode i).2 = .ok i

/-- Bytes that decode are the encoding of what they decode to, which is well formed: no byte of them
is dropped, and no two byte sequences at a port are one instruction. -/
def Obligations.EncodeDecodeRoundTrip : Prop :=
  ∀ (port : Port) (bytes : List Byte) (i : Instr),
    decode port bytes = .ok i → i.wf = true ∧ encode i = (port, bytes)

/-! ### The register space and the host's accesses -/

/-- When the host's next access hands bytes to the decoder and they are instruction `i`, the step is
`exec i` of the state without that access, with the byte stored in CMD where it is a command word. -/
def Obligations.StepRunsDecodedInstruction : Prop :=
  ∀ (s : State) (a : HostAction) (rest : List HostAction) (port : Port) (bytes : List Byte)
    (i : Instr),
    s.pending = a :: rest → a.instrBytes s.readData = some (port, bytes) →
    decode port bytes = .ok i →
    step s = exec i
      (if port = .command then { s with pending := rest, cmd := byteAt bytes 0 }
       else { s with pending := rest })

/-- R56: a write of v to CMD stores v and runs the command v encodes; a write at any other offset has
no effect beyond its own byte. -/
def Obligations.CmdWriteStoresAndRuns : Prop :=
  (∀ (s : State) (v : Byte) (rest : List HostAction),
    s.pending = .write 0x000 [v] :: rest →
    step s = exec (decodeCommand v) { s with pending := rest, cmd := v }) ∧
  (∀ (s : State) (off : Nat) (v : Byte) (rest : List HostAction),
    s.pending = .write off [v] :: rest → off ≠ 0x000 → off ≤ 0x3FF →
    ∃ t, step s = .next t ∧ keepsAllBut (fun o => o = off) { s with pending := rest } t)

/-- R55: at an RW register or IN_BUF byte other than CMD a write stores the byte and does nothing
else; at a read-only or reserved offset it changes nothing. -/
def Obligations.HostWriteEffects : Prop :=
  ∀ (s : State) (off : Nat) (v : Byte) (rest : List HostAction),
    s.pending = .write off [v] :: rest → off ≠ 0x000 → off ≤ 0x3FF →
    ∃ t, step s = .next t ∧
      if (0x002 ≤ off ∧ off ≤ 0x009) ∨ (0x010 ≤ off ∧ off ≤ 0x015) ∨ (0x100 ≤ off ∧ off ≤ 0x1FF)
      then t.memRead Params.block off = v ∧
        keepsAllBut (fun o => o = off) { s with pending := rest } t
      else t = { s with pending := rest }

/-- A write-back writes the byte the host's last read returned, under the rules of a byte write: it
stores at an RW offset, is ignored at a read-only or reserved one, runs the command at CMD and is
refused above 0x3FF. That the `WR off, t` of R85 is an entry of its own is the model's choice
(log 23). -/
def Obligations.WriteBackEffects : Prop :=
  ∀ (s : State) (off : Nat) (rest : List HostAction), s.pending = .writeBack off :: rest →
    if 0x3FF < off then step s = .refused (.offsetOutOfSpace off)
    else if off = 0x000 then
      step s = exec (decodeCommand s.readData) { s with pending := rest, cmd := s.readData }
    else
      ∃ t, step s = .next t ∧
        if (0x002 ≤ off ∧ off ≤ 0x009) ∨ (0x010 ≤ off ∧ off ≤ 0x015) ∨
            (0x100 ≤ off ∧ off ≤ 0x1FF)
        then t.memRead Params.block off = s.readData ∧
          keepsAllBut (fun o => o = off) { s with pending := rest } t
        else t = { s with pending := rest }

/-- R57: a reserved offset reads 0x00, and a write to it is ignored. -/
def Obligations.ReservedOffsetsReadZero : Prop :=
  ∀ (s : State) (off : Nat) (v : Byte) (rest : List HostAction),
    (off = 0x00E ∨ off = 0x00F ∨ off = 0x016 ∨ off = 0x017 ∨ (0x020 ≤ off ∧ off ≤ 0x0FF) ∨
      (0x300 ≤ off ∧ off ≤ 0x3FF)) →
    step { s with pending := .read off 1 :: rest } =
      .next { s with pending := rest, readData := 0x00 } ∧
    step { s with pending := .write off [v] :: rest } = .next { s with pending := rest }

/-- R54: a read returns the byte at its offset, 0x00 for a reserved one, and changes nothing of the
block. -/
def Obligations.HostReadHasNoSideEffect : Prop :=
  ∀ (s : State) (off : Nat) (rest : List HostAction),
    s.pending = .read off 1 :: rest → off ≤ 0x3FF →
    step s = .next { s with pending := rest, readData := s.memRead Params.block off } ∧
    (off = 0x00E ∨ off = 0x00F ∨ off = 0x016 ∨ off = 0x017 ∨ (0x020 ≤ off ∧ off ≤ 0x0FF) ∨
      0x300 ≤ off → s.memRead Params.block off = 0x00)

/-- An access of another width than one byte is refused, and so is any offset above 0x3FF, as R51
says. Where an access is both, the reason named is its width: that is the model's choice (log 10). -/
def Obligations.WideAndOutsideAccessesRefused : Prop :=
  ∀ (s : State) (off n : Nat) (bytes : List Byte) (v : Byte) (rest : List HostAction),
    (bytes.length ≠ 1 → step { s with pending := .write off bytes :: rest } =
      .refused (.accessWidth bytes.length)) ∧
    (n ≠ 1 → step { s with pending := .read off n :: rest } = .refused (.accessWidth n)) ∧
    (0x3FF < off → step { s with pending := .write off [v] :: rest } =
      .refused (.offsetOutOfSpace off)) ∧
    (0x3FF < off → step { s with pending := .read off 1 :: rest } =
      .refused (.offsetOutOfSpace off))

/-- R73, for every FRAME_MAX the spec allows: what each offset reads, and which offsets a write
stores at. -/
def Obligations.RegisterMapLayout : Prop :=
  ∀ (p : Params) (s : State) (v : Byte), p.wf = true →
    [0x000, 0x001, 0x002, 0x003, 0x004, 0x005, 0x006, 0x007, 0x008, 0x009, 0x00A, 0x00B, 0x00C,
        0x00D].map (s.memRead p) =
      [s.cmd, s.status, s.addr, s.fc, s.startHi, s.startLo, s.cntHi, s.cntLo, s.inLenHi, s.inLenLo,
        s.crcOutHi, s.crcOutLo, s.outLen, s.wordsLen] ∧
    (∀ k : Fin 6, s.memRead p (0x010 + k) = s.sentReq[k]) ∧
    (∀ k < 8, s.memRead p (0x018 + k) = byteAt s.frameOut k) ∧
    (∀ k < p.frameMax, s.memRead p (0x100 + k) = byteAt (s.input p.frameMax) k) ∧
    (∀ i < 128, s.memRead p (0x200 + 2 * i) = hi8 (s.wordOut i) ∧
      s.memRead p (0x201 + 2 * i) = lo8 (s.wordOut i)) ∧
    (∀ off, (off = 0x00E ∨ off = 0x00F ∨ off = 0x016 ∨ off = 0x017 ∨
        (0x020 ≤ off ∧ off ≤ 0x0FF) ∨ (0x100 + p.frameMax ≤ off ∧ off ≤ 0x1FF) ∨
        (0x300 ≤ off ∧ off ≤ 0x3FF)) →
      s.memRead p off = 0x00 ∧ s.memStore p off v = s) ∧
    (∀ off, (off = 0x000 ∨ (0x002 ≤ off ∧ off ≤ 0x009) ∨ (0x010 ≤ off ∧ off ≤ 0x015) ∨
        (0x100 ≤ off ∧ off < 0x100 + p.frameMax)) →
      (s.memStore p off v).memRead p off = v) ∧
    (∀ off, (off = 0x001 ∨ (0x00A ≤ off ∧ off ≤ 0x00D) ∨ (0x018 ≤ off ∧ off ≤ 0x01F) ∨
        (0x200 ≤ off ∧ off ≤ 0x2FF)) →
      s.memStore p off v = s)

/-- R74: each 16-bit operand is its register pair, high byte at the lower offset, unsigned; the 8-bit
operands are their registers; an input sequence is the first bytes of IN_BUF. -/
def Obligations.OperandPairs : Prop :=
  ∀ s : State,
    s.addr = s.memRead Params.block 0x002 ∧ s.fc = s.memRead Params.block 0x003 ∧
    (∀ k : Fin 6, s.sentReq[k] = s.memRead Params.block (0x010 + k)) ∧
    (∀ n ≤ 256, (s.input n).length = n ∧
      ∀ k < n, byteAt (s.input n) k = s.memRead Params.block (0x100 + k)) ∧
    s.start = u16 (s.memRead Params.block 0x004) (s.memRead Params.block 0x005) ∧
    s.cnt = u16 (s.memRead Params.block 0x006) (s.memRead Params.block 0x007) ∧
    s.inLen = u16 (s.memRead Params.block 0x008) (s.memRead Params.block 0x009) ∧
    ∀ v : Word, u16 (hi8 v) (lo8 v) = v ∧ v.toNat = 256 * (hi8 v).toNat + (lo8 v).toNat

/-- A status byte has DONE set, bits 6:4 zero and the code's number of R171 in CODE. -/
def Obligations.StatusByteFields : Prop :=
  (∀ (s : State) (code : StatusCode),
    (s.finish code).done = true ∧ (s.finish code).statusRsv = 0 ∧
    (s.finish code).code = code.number) ∧
  [StatusCode.ok, .invalidArgument, .crcMismatch, .addressMismatch, .functionMismatch,
      .byteCountMismatch, .timeout, .transportError, .notInitialized, .illegalCommand].map
    (fun c => c.number.toNat) = [0, 1, 2, 3, 4, 5, 6, 7, 8, 15]

/-! ### Reset -/

/-- R41: every register outside the three buffers is 0x00 after reset, and no buffer byte has been
written. -/
def Obligations.ResetValues : Prop :=
  (∀ off, isBufferOffset off = false → State.reset.memRead Params.block off = 0x00) ∧
  ∀ off, ¬ State.reset.written off

/-- The reset event sets every register to its reset value, leaves the buffers unspecified and runs no
command, as R190 says. That it is an entry of the host's list and keeps what the host has read and has
still to do is the model's choice (log 16). -/
def Obligations.ResetEventEffect : Prop :=
  ∀ (s : State) (rest : List HostAction), s.pending = .reset :: rest →
    ∃ t, step s = .next t ∧
      (∀ off, isBufferOffset off = false → t.memRead Params.block off = 0x00) ∧
      (∀ off, ¬ t.written off) ∧ t.pending = rest ∧ t.readData = s.readData

/-- With nothing for the host to do the block does nothing: it executes only when the host writes
CMD. That the machine then steps to the same state is the model's choice (log 2). -/
def Obligations.IdleBlockStaysPut : Prop :=
  ∀ s : State, s.pending = [] → step s = .next s

/-- The draw of a byte is fixed until the host writes it: no step but one that writes the IN_BUF byte,
or a reset, changes it. -/
def Obligations.InputBytesChangeOnlyByHostWrites : Prop :=
  ∀ (s t : State) (a : HostAction) (rest : List HostAction) (k : Nat),
    s.pending = a :: rest → step s = .next t → k < 256 →
    a ≠ .reset → (∀ bytes, a ≠ .write (0x100 + k) bytes) → a ≠ .writeBack (0x100 + k) →
    (∀ frame, a = .response frame → frame.length ≤ k) →
    t.bufByte (0x100 + k) = s.bufByte (0x100 + k)

/-! ### The checksum -/

/-- R100 to R103: the seed, one byte step per byte, eight bit steps per byte, no final step. -/
def Obligations.ChecksumDefinition : Prop :=
  crc16 [] = 0xFFFF ∧
  (∀ s b, crc16 (s ++ [b]) = crcByte (crc16 s) b) ∧
  (∀ acc b, crcByte acc b = crcBit^[8] (acc ^^^ b.setWidth 16)) ∧
  ∀ acc, crcBit acc = if acc.getLsbD 0 then (acc >>> 1) ^^^ 0xA001#16 else acc >>> 1

/-- Vectors V1 to V6. -/
def Obligations.ChecksumVectors : Prop :=
  crc16 [0x01, 0x03, 0x00, 0x00, 0x00, 0x01] = 0x0A84 ∧
  crc16 [] = 0xFFFF ∧ crc16 [0x00] = 0x40BF ∧ crc16 [0xFF] = 0x00FF ∧ crc16 [0x01] = 0x807E ∧
  crc16 [0x31, 0x32, 0x33, 0x34, 0x35, 0x36, 0x37, 0x38, 0x39] = 0x4B37

/-- A sequence with its trailer appended has checksum zero: the spec's own inference, R106. -/
def Obligations.TrailerResidueIsZero : Prop :=
  ∀ s : List Byte, crc16 (withTrailer s) = 0x0000

/-- Changing any single bit of a sequence that ends in its correct trailer makes the trailer wrong:
the spec's own inference, R107. -/
def Obligations.SingleBitErrorsAreDetected : Prop :=
  ∀ (s : List Byte) (k : Nat), k < 8 * (s.length + 2) →
    crc16 ((flipBit (withTrailer s) k).take s.length) ≠
      u16 (byteAt (flipBit (withTrailer s) k) (s.length + 1))
        (byteAt (flipBit (withTrailer s) k) s.length)

/-! ### The commands -/

/-- R105: CRC16 puts the checksum of the first IN_LEN bytes of IN_BUF in CRC_OUT, or ends with
IllegalCommand when IN_LEN exceeds FRAME_MAX, and writes nothing else. -/
def Obligations.Crc16CommandEffect : Prop :=
  decode .command [0x00] = .ok .crc16 ∧
  ∀ s : State, ∃ t, exec .crc16 s = .next t ∧
    if s.inLen.toNat ≤ 256 then
      t.crcOut = crc16 (s.input s.inLen.toNat) ∧ t.status = 0x80 ∧
      keepsAllBut (fun off => atStatus off ∨ atCrcOut off) s t
    else t.status = 0x8F ∧ keepsAllBut atStatus s t

/-- R120: BUILD_READ builds the frame of R75 when count and address are not zero and the
function code is 3 or 4, and otherwise ends with InvalidArgument; it writes nothing else. -/
def Obligations.BuildReadEffect : Prop :=
  decode .command [0x01] = .ok .buildRead ∧
  ∀ s : State, ∃ t, exec .buildRead s = .next t ∧
    if s.cnt ≠ 0 ∧ s.addr ≠ 0 ∧ (s.fc = 3 ∨ s.fc = 4) then
      t.frameOut = [s.addr, s.fc, hi8 s.start, lo8 s.start, hi8 s.cnt, lo8 s.cnt,
        lo8 t.crcOut, hi8 t.crcOut] ∧
      t.crcOut = crc16 [s.addr, s.fc, hi8 s.start, lo8 s.start, hi8 s.cnt, lo8 s.cnt] ∧
      t.outLen = 8 ∧ t.status = 0x80 ∧
      keepsAllBut (fun off => atStatus off ∨ atCrcOut off ∨ atOutLen off ∨ atFrameOut off) s t
    else
      t.outLen = 0 ∧ t.status = 0x81 ∧ keepsAllBut (fun off => atStatus off ∨ atOutLen off) s t

/-- R126: BUILD_WRITE_SINGLE builds the frame of R76, its byte 1 always 0x06, when the address is not
zero, and otherwise ends with InvalidArgument; it writes nothing else. -/
def Obligations.BuildWriteSingleEffect : Prop :=
  decode .command [0x02] = .ok .buildWriteSingle ∧
  ∀ s : State, ∃ t, exec .buildWriteSingle s = .next t ∧
    if s.addr ≠ 0 then
      t.frameOut = [s.addr, 0x06, hi8 s.start, lo8 s.start, hi8 s.cnt, lo8 s.cnt,
        lo8 t.crcOut, hi8 t.crcOut] ∧
      t.crcOut = crc16 [s.addr, 0x06, hi8 s.start, lo8 s.start, hi8 s.cnt, lo8 s.cnt] ∧
      t.outLen = 8 ∧ t.status = 0x80 ∧
      keepsAllBut (fun off => atStatus off ∨ atCrcOut off ∨ atOutLen off ∨ atFrameOut off) s t
    else
      t.outLen = 0 ∧ t.status = 0x81 ∧ keepsAllBut (fun off => atStatus off ∨ atOutLen off) s t

/-- R122, R123: what a build that succeeds writes, what one that fails writes, and nothing else. -/
def Obligations.BuildsWriteExactlyTheirResults : Prop :=
  ∀ (s : State) (i : Instr) (f : Byte),
    (i = .buildRead ∧ f = s.fc) ∨ (i = .buildWriteSingle ∧ f = 0x06) →
    ∃ t, exec i s = .next t ∧
      if t.status = 0x80 then
        t.frameOut = requestFrame s.addr f s.start s.cnt ∧ t.outLen = 8 ∧
        t.crcOutHi = byteAt t.frameOut 7 ∧ t.crcOutLo = byteAt t.frameOut 6 ∧
        t.crcOut = crc16 (t.frameOut.take 6) ∧
        keepsAllBut (fun off => atStatus off ∨ atCrcOut off ∨ atOutLen off ∨ atFrameOut off) s t
      else
        t.outLen = 0 ∧ t.status = 0x81 ∧ keepsAllBut (fun off => atStatus off ∨ atOutLen off) s t

/-- R121, R124, R127: the argument checks of both builds for every setting of STRICT_RANGE and
REJECT_ZERO_WRITE_VALUE. -/
def Obligations.BuildArgumentChecks : Prop :=
  ∀ (p : Params) (s : State),
    (if s.cnt ≠ 0 ∧ s.addr ≠ 0 ∧ (s.fc = 3 ∨ s.fc = 4) ∧
        (p.strictRange = true → s.addr.toNat ≤ 247 ∧ s.cnt.toNat ≤ 125)
      then buildReadCommand p s = s.succeedBuild (requestFrame s.addr s.fc s.start s.cnt)
      else buildReadCommand p s = { s with outLen := 0, status := 0x81 }) ∧
    (if s.addr ≠ 0 ∧ (p.rejectZeroWriteValue = true → s.cnt ≠ 0) ∧
        (p.strictRange = true → s.addr.toNat ≤ 247)
      then buildWriteSingleCommand p s = s.succeedBuild (requestFrame s.addr 0x06 s.start s.cnt)
      else buildWriteSingleCommand p s = { s with outLen := 0, status := 0x81 })

/-- CRC16 for every FRAME_MAX of R7: IN_LEN is checked against the parameter. The machine runs it with
this block's FRAME_MAX, 256. -/
def Obligations.Crc16UnderEveryFrameMax : Prop :=
  Params.block.frameMax = 256 ∧
  (∀ s : State, exec .crc16 s = .next (crc16Command Params.block s)) ∧
  ∀ (p : Params) (s : State), p.wf = true →
    if s.inLen.toNat ≤ p.frameMax then
      (crc16Command p s).crcOut = crc16 (s.input s.inLen.toNat) ∧
      (crc16Command p s).status = 0x80 ∧
      keepsAllBut (fun off => atStatus off ∨ atCrcOut off) s (crc16Command p s)
    else crc16Command p s = { s with status := 0x8F }

/-- R141: PARSE_READ for every setting of FRAME_MAX and LENGTH_ERROR_CODE: a failed length check has
the parameter's code, ByteCountMismatch for this block; the other checks have their own; and what is
written follows from the status alone. -/
def Obligations.ParseReadUnderEveryParameterSetting : Prop :=
  Params.block.lengthErrorCode = .byteCountMismatch ∧
  (∀ s : State, exec .parseRead s = .next (parseReadCommand Params.block s)) ∧
  ∀ (p : Params) (s : State) (st : Byte), p.wf = true →
    st = (if p.frameMax < s.inLen.toNat then 0x8F
      else if s.inLen.toNat ≠ 5 + 2 * s.cnt.toNat then mismatchByte p.lengthErrorCode
      else if crc16 (s.input (s.inLen.toNat - 2)) ≠
          u16 (s.bufByte (0x100 + (s.inLen.toNat - 1)))
            (s.bufByte (0x100 + (s.inLen.toNat - 2))) then 0x82
      else if s.bufByte 0x100 ≠ s.addr then 0x83
      else if s.bufByte 0x101 ≠ s.fc then 0x84
      else if (s.bufByte 0x102).toNat ≠ 2 * s.cnt.toNat then 0x85
      else 0x80) →
    (parseReadCommand p s).status = st ∧
    if st = 0x80 then
      (∀ i < s.cnt.toNat, (parseReadCommand p s).wordOut i =
        u16 (s.bufByte (0x100 + (3 + 2 * i))) (s.bufByte (0x100 + (4 + 2 * i)))) ∧
      (parseReadCommand p s).wordsLen.toNat = s.cnt.toNat ∧
      keepsAllBut (fun off => atStatus off ∨ atWordsLen off ∨ atWordsOut s.cnt.toNat off) s
        (parseReadCommand p s)
    else parseReadCommand p s = { s with status := st, wordsLen := 0 }

/-- R151, R155: PARSE_WRITE_SINGLE for every setting of FRAME_MAX, LENGTH_ERROR_CODE and
ECHO_ERROR_CODE: a failed length check and a failed register and value check have the parameters'
codes, both ByteCountMismatch for this block; only STATUS is written. -/
def Obligations.ParseWriteSingleUnderEveryParameterSetting : Prop :=
  Params.block.lengthErrorCode = .byteCountMismatch ∧
  Params.block.echoErrorCode = .byteCountMismatch ∧
  (∀ s : State, exec .parseWriteSingle s = .next (parseWriteSingleCommand Params.block s)) ∧
  ∀ (p : Params) (s : State), p.wf = true →
    parseWriteSingleCommand p s = { s with
      status :=
        if p.frameMax < s.inLen.toNat then 0x8F
        else if s.inLen ≠ 8 then mismatchByte p.lengthErrorCode
        else if crc16 (s.input 6) ≠ u16 (s.bufByte 0x107) (s.bufByte 0x106) then 0x82
        else if s.bufByte 0x100 ≠ s.sentReq[0] then 0x83
        else if s.bufByte 0x101 ≠ s.sentReq[1] then 0x84
        else if s.bufByte 0x102 ≠ s.sentReq[2] ∨ s.bufByte 0x103 ≠ s.sentReq[3] ∨
            s.bufByte 0x104 ≠ s.sentReq[4] ∨ s.bufByte 0x105 ≠ s.sentReq[5] then
          mismatchByte p.echoErrorCode
        else 0x80 }

/-- R146: PARSE_READ on a response that passes every check writes the N words, high byte first, and
WORDS_LEN = N, and nothing else but STATUS. -/
def Obligations.ParseReadExtractsWords : Prop :=
  ∀ s : State,
    s.inLen.toNat ≤ 256 → s.inLen.toNat = 5 + 2 * s.cnt.toNat →
    crc16 (s.input (s.inLen.toNat - 2)) =
      u16 (s.bufByte (0x100 + (s.inLen.toNat - 1))) (s.bufByte (0x100 + (s.inLen.toNat - 2))) →
    s.bufByte 0x100 = s.addr → s.bufByte 0x101 = s.fc →
    (s.bufByte 0x102).toNat = 2 * s.cnt.toNat →
    ∃ t, exec .parseRead s = .next t ∧
      (∀ i < s.cnt.toNat,
        t.wordOut i = u16 (s.bufByte (0x100 + (3 + 2 * i))) (s.bufByte (0x100 + (4 + 2 * i)))) ∧
      t.wordsLen.toNat = s.cnt.toNat ∧ t.status = 0x80 ∧
      keepsAllBut (fun off => atStatus off ∨ atWordsLen off ∨ atWordsOut s.cnt.toNat off) s t

/-- R141 to R145, R147, R148: PARSE_READ reports the first check that fails, in the order IN_LEN,
length, CRC, address, function, byte count; a failure writes WORDS_LEN = 0 and STATUS only. -/
def Obligations.ParseReadReportsFirstFailure : Prop :=
  ∀ s : State, ∃ t, exec .parseRead s = .next t ∧
    t.status =
      (if 256 < s.inLen.toNat then 0x8F
       else if s.inLen.toNat ≠ 5 + 2 * s.cnt.toNat then 0x85
       else if crc16 (s.input (s.inLen.toNat - 2)) ≠
          u16 (s.bufByte (0x100 + (s.inLen.toNat - 1)))
            (s.bufByte (0x100 + (s.inLen.toNat - 2))) then 0x82
       else if s.bufByte 0x100 ≠ s.addr then 0x83
       else if s.bufByte 0x101 ≠ s.fc then 0x84
       else if (s.bufByte 0x102).toNat ≠ 2 * s.cnt.toNat then 0x85
       else 0x80) ∧
    (t.status ≠ 0x80 →
      t.wordsLen = 0 ∧ keepsAllBut (fun off => atStatus off ∨ atWordsLen off) s t)

/-- R150 to R156: PARSE_WRITE_SINGLE reports the first check that fails, in the order IN_LEN, length,
CRC, address, function, register and value, and writes only STATUS. -/
def Obligations.ParseWriteSingleEffect : Prop :=
  decode .command [0x04] = .ok .parseWriteSingle ∧
  ∀ s : State, ∃ t, exec .parseWriteSingle s = .next t ∧ keepsAllBut atStatus s t ∧
    t.status =
      (if 256 < s.inLen.toNat then 0x8F
       else if s.inLen ≠ 8 then 0x85
       else if crc16 (s.input 6) ≠ u16 (s.bufByte 0x107) (s.bufByte 0x106) then 0x82
       else if s.bufByte 0x100 ≠ s.sentReq[0] then 0x83
       else if s.bufByte 0x101 ≠ s.sentReq[1] then 0x84
       else if s.bufByte 0x102 ≠ s.sentReq[2] ∨ s.bufByte 0x103 ≠ s.sentReq[3] ∨
          s.bufByte 0x104 ≠ s.sentReq[4] ∨ s.bufByte 0x105 ≠ s.sentReq[5] then 0x85
       else 0x80)

/-- PARSE_WRITE_SINGLE ends with Ok exactly when the response is byte for byte the sent request with
its trailer: the spec's own inference, R157. -/
def Obligations.ParseWriteSingleOkExactlyOnEcho : Prop :=
  ∀ s : State, ∃ t, exec .parseWriteSingle s = .next t ∧
    (t.status = 0x80 ↔ s.inLen = 8 ∧ s.input 8 = withTrailer s.sentBytes)

/-- R72: a reserved command word reads no operand and writes no result register; STATUS is 0x8F. -/
def Obligations.ReservedWordsEndIllegal : Prop :=
  ∀ (s : State) (v : Byte) (rest : List HostAction), 5 ≤ v.toNat →
    exec (.reservedCmd v) s = .next { s with status := 0x8F } ∧
    step { s with pending := .write 0x000 [v] :: rest } =
      .next { s with pending := rest, cmd := v, status := 0x8F }

/-- R173: the two cases of IllegalCommand, and all that each writes. -/
def Obligations.IllegalCommandCases : Prop :=
  (∀ (s : State) (v : Byte) (rest : List HostAction),
    s.pending = .write 0x000 [v] :: rest → 5 ≤ v.toNat →
    step s = .next { s with pending := rest, cmd := v, status := 0x8F }) ∧
  (∀ s : State, 256 < s.inLen.toNat →
    exec .crc16 s = .next { s with status := 0x8F } ∧
    exec .parseRead s = .next { s with status := 0x8F, wordsLen := 0 } ∧
    exec .parseWriteSingle s = .next { s with status := 0x8F })

/-- PARSE_READ with N of 126 or more can never succeed: IN_LEN exceeds FRAME_MAX or the length check
fails. The spec's own inference, R8 and the corner cases of R140; the length is exact, with no 16-bit
wrap. -/
def Obligations.LargeWordCountsNeverSucceed : Prop :=
  ∀ s : State, 126 ≤ s.cnt.toNat →
    ∃ t, exec .parseRead s = .next t ∧ t.wordsLen = 0 ∧
      t.status = if 256 < s.inLen.toNat then 0x8F else 0x85

/-- Modbus exception responses get no special treatment: the spec's own inference, R149. With N = 0
the function check is reached when ADDR is the frame's address. -/
def Obligations.ExceptionResponsesFailGenericChecks : Prop :=
  ∀ (s : State) (addr fc code : Byte),
    s.inLen = 5 → s.input 5 = withTrailer [addr, fc ||| 0x80, code] →
    (1 ≤ s.cnt.toNat → ∃ t, exec .parseRead s = .next t ∧ t.status = 0x85) ∧
    (s.cnt = 0 → s.addr = addr → (s.fc = 3 ∨ s.fc = 4) →
      ∃ t, exec .parseRead s = .next t ∧ t.status = 0x84) ∧
    (∃ t, exec .parseWriteSingle s = .next t ∧ t.status = 0x85)

/-! ### The frame kinds -/

/-- R75 with the host statements of R85: READ_REQ_FC03 and READ_REQ_FC04 leave the frame of R75 in
FRAME_OUT, having written ADDR, FC, START, CNT and CMD; with address or count 0 no frame is built. -/
def Obligations.ReadRequestFramesBuilt : Prop :=
  ∀ (s : State) (a f : Byte) (st n : Word) (i : Instr),
    (f = 0x03 ∧ i = .readReqFc03 a st n) ∨ (f = 0x04 ∧ i = .readReqFc04 a st n) →
    ∃ t, exec i s = .next t ∧
      t.addr = a ∧ t.fc = f ∧ t.start = st ∧ t.cnt = n ∧ t.cmd = 0x01 ∧
      if a ≠ 0 ∧ n ≠ 0 then
        t.frameOut = [a, f, hi8 st, lo8 st, hi8 n, lo8 n, lo8 t.crcOut, hi8 t.crcOut] ∧
        t.crcOut = crc16 [a, f, hi8 st, lo8 st, hi8 n, lo8 n] ∧
        t.outLen = 8 ∧ t.status = 0x80 ∧
        keepsAllBut (fun off => atCmd off ∨ atStatus off ∨ atAddrStartCnt off ∨ atFc off ∨
          atCrcOut off ∨ atOutLen off ∨ atFrameOut off) s t
      else
        t.outLen = 0 ∧ t.status = 0x81 ∧
        keepsAllBut (fun off => atCmd off ∨ atStatus off ∨ atAddrStartCnt off ∨ atFc off ∨
          atOutLen off) s t

/-- R76 with the host statement of R85: WRITE_SINGLE_REQ leaves the frame of R76 in FRAME_OUT, having
written ADDR, START, CNT and CMD, not FC; with address 0 no frame is built. -/
def Obligations.WriteSingleRequestFrameBuilt : Prop :=
  ∀ (s : State) (a : Byte) (st v : Word),
    ∃ t, exec (.writeSingleReq a st v) s = .next t ∧
      t.addr = a ∧ t.start = st ∧ t.cnt = v ∧ t.cmd = 0x02 ∧
      if a ≠ 0 then
        t.frameOut = [a, 0x06, hi8 st, lo8 st, hi8 v, lo8 v, lo8 t.crcOut, hi8 t.crcOut] ∧
        t.crcOut = crc16 [a, 0x06, hi8 st, lo8 st, hi8 v, lo8 v] ∧
        t.outLen = 8 ∧ t.status = 0x80 ∧
        keepsAllBut (fun off => atCmd off ∨ atStatus off ∨ atAddrStartCnt off ∨
          atCrcOut off ∨ atOutLen off ∨ atFrameOut off) s t
      else
        t.outLen = 0 ∧ t.status = 0x81 ∧
        keepsAllBut (fun off => atCmd off ∨ atStatus off ∨ atAddrStartCnt off ∨ atOutLen off) s t

/-- READ_RESP: the frame lands in IN_BUF and IN_LEN and is checked against ADDR, FC and CNT; it is
accepted, and its words extracted, exactly when R77's fields are right. That the row is run so is the
model's reading (log 4). -/
def Obligations.ReadResponseFrameChecked : Prop :=
  ∀ (s : State) (a f bc : Byte) (ws : List Word) (c : Word), ws.length ≤ 125 →
    ∃ t, exec (.readResp a f bc ws c) s = .next t ∧
      t.input (5 + 2 * ws.length) = a :: f :: bc :: (wordBytes ws ++ [lo8 c, hi8 c]) ∧
      t.inLen.toNat = 5 + 2 * ws.length ∧ t.cmd = 0x03 ∧
      t.status =
        (if ws.length ≠ s.cnt.toNat then 0x85
         else if c ≠ crc16 (a :: f :: bc :: wordBytes ws) then 0x82
         else if a ≠ s.addr then 0x83
         else if f ≠ s.fc then 0x84
         else if bc.toNat ≠ 2 * ws.length then 0x85
         else 0x80) ∧
      if t.status = 0x80 then
        (∀ (i : Nat) (h : i < ws.length), t.wordOut i = ws[i]) ∧
        t.wordsLen.toNat = ws.length ∧
        keepsAllBut (fun off => atCmd off ∨ atStatus off ∨ atInLen off ∨ atWordsLen off ∨
          atInBuf (5 + 2 * ws.length) off ∨ atWordsOut ws.length off) s t
      else
        t.wordsLen = 0 ∧
        keepsAllBut (fun off => atCmd off ∨ atStatus off ∨ atInLen off ∨ atWordsLen off ∨
          atInBuf (5 + 2 * ws.length) off) s t

/-- WRITE_SINGLE_RESP: the frame lands in IN_BUF and IN_LEN and is checked against SENT_REQ. That the
row is run so is the model's reading (log 4). -/
def Obligations.WriteSingleResponseFrameChecked : Prop :=
  ∀ (s : State) (a f : Byte) (reg v c : Word),
    ∃ t, exec (.writeSingleResp a f reg v c) s = .next t ∧
      t.input 8 = [a, f, hi8 reg, lo8 reg, hi8 v, lo8 v, lo8 c, hi8 c] ∧
      t.inLen = 8 ∧ t.cmd = 0x04 ∧
      t.status =
        (if c ≠ crc16 [a, f, hi8 reg, lo8 reg, hi8 v, lo8 v] then 0x82
         else if a ≠ s.sentReq[0] then 0x83
         else if f ≠ s.sentReq[1] then 0x84
         else if reg ≠ u16 s.sentReq[2] s.sentReq[3] ∨ v ≠ u16 s.sentReq[4] s.sentReq[5] then 0x85
         else 0x80) ∧
      keepsAllBut (fun off => atCmd off ∨ atStatus off ∨ atInLen off ∨ atInBuf 8 off) s t

/-! ### Host statements and their expansions -/

/-- The request rows are the host statements of R85: running the expansion of R84, byte write by byte
write, from any state ends where the row's one step ends. -/
def Obligations.RequestStatementsAreTheirExpansion : Prop :=
  ∀ (s : State) (rest : List HostAction) (a : Byte) (st n : Word),
    run 7
        { s with pending := (Statement.readHoldingReq a st n).expand ++ rest } =
      exec (.readReqFc03 a st n) { s with pending := rest } ∧
    run 7
        { s with pending := (Statement.readInputReq a st n).expand ++ rest } =
      exec (.readReqFc04 a st n) { s with pending := rest } ∧
    run 6
        { s with pending := (Statement.writeSingleReq a st n).expand ++ rest } =
      exec (.writeSingleReq a st n) { s with pending := rest }

/-- The response rows are the host's writes of the frame and of its length, byte by byte, followed by
the write of the parse command (R84). That the rows are these writes is the model's reading (log 4). -/
def Obligations.ResponseFramesAreTheirExpansion : Prop :=
  (∀ (s : State) (rest : List HostAction) (a f bc : Byte) (ws : List Word) (c : Word),
    ws.length ≤ 125 →
    run (8 + 2 * ws.length)
        { s with pending := wrInput (readRespBytes a f bc ws c) ++ wr 0x000 0x03 :: rest } =
      exec (.readResp a f bc ws c) { s with pending := rest }) ∧
  (∀ (s : State) (rest : List HostAction) (a f : Byte) (reg v c : Word),
    run 11
        { s with pending := wrInput (writeSingleRespBytes a f reg v c) ++ wr 0x000 0x04 :: rest } =
      exec (.writeSingleResp a f reg v c) { s with pending := rest })

/-- The host statement `CRC16 [b0..bL-1]` of R84, from any state and whatever IN_BUF held, leaves the
checksum of exactly those bytes in CRC_OUT and STATUS = 0x80. -/
def Obligations.Crc16StatementComputesChecksum : Prop :=
  ∀ (s : State) (rest : List HostAction) (bytes : List Byte), bytes.length ≤ 256 →
    ∃ t, run (bytes.length + 3)
        { s with pending := (Statement.crc16 bytes).expand ++ rest } = .next t ∧
      t.crcOut = crc16 bytes ∧ t.status = 0x80 ∧ t.pending = rest

/-- The source's round trip (the spec's own inference, R158): a well-formed response of N words, N at
most 125, given to PARSE_READ with the matching operands yields exactly its words. -/
def Obligations.ReadResponseRoundTrip : Prop :=
  ∀ (s : State) (rest : List HostAction) (a f : Byte) (ws : List Word), ws.length ≤ 125 →
    ∃ t, run (12 + 2 * ws.length)
        { s with pending := (Statement.parseRead (readResponse a f ws) a f
            (BitVec.ofNat 16 ws.length)).expand ++ rest } = .next t ∧
      t.status = 0x80 ∧ t.wordsLen.toNat = ws.length ∧
      (∀ (i : Nat) (h : i < ws.length), t.wordOut i = ws[i]) ∧ t.pending = rest

/-- A built write-single request, copied to SENT_REQ and echoed back whole, is accepted: the spec's own
inference, R129, as the host's program of R84 and R85 from any state. -/
def Obligations.WriteSingleEchoAccepted : Prop :=
  ∀ (s : State) (rest : List HostAction) (a : Byte) (st v : Word), a ≠ 0 →
    ∃ t, run 29
        { s with pending := expandProgram [.writeSingleReq a st v, .copySentReq] ++
            (wrInput (requestFrame a 0x06 st v) ++ wr 0x000 0x04 :: rest) } = .next t ∧
      t.status = 0x80 ∧ t.pending = rest

/-- COPY_SENT_REQ (R85) copies FRAME_OUT[0..5] into SENT_REQ and changes nothing else of the block. -/
def Obligations.CopySentReqCopiesFrame : Prop :=
  ∀ (s : State) (rest : List HostAction),
    ∃ t, run 12 { s with pending := Statement.copySentReq.expand ++ rest } = .next t ∧
      t.sentBytes = s.frameOut.take 6 ∧ t.readData = s.bufByte 0x01D ∧ t.pending = rest ∧
      ∀ off, ¬ (0x010 ≤ off ∧ off ≤ 0x015) → t.memRead Params.block off = s.memRead Params.block off

/-- The source's corruption property (the spec's own inference, R159): any single-bit corruption of a
well-formed response yields CrcMismatch, whatever the expected address and function or SENT_REQ are. -/
def Obligations.SingleBitCorruptionYieldsCrcMismatch : Prop :=
  (∀ (s : State) (a f : Byte) (ws : List Word) (k : Nat),
    ws.length ≤ 125 → k < 8 * (5 + 2 * ws.length) →
    s.cnt.toNat = ws.length → s.inLen.toNat = 5 + 2 * ws.length →
    s.input (5 + 2 * ws.length) = flipBit (readResponse a f ws) k →
    exec .parseRead s = .next { s with status := 0x82, wordsLen := 0 }) ∧
  (∀ (s : State) (a f : Byte) (reg v : Word) (k : Nat), k < 64 → s.inLen = 8 →
    s.input 8 = flipBit (requestFrame a f reg v) k →
    exec .parseWriteSingle s = .next { s with status := 0x82 })

/-! ### Whole-machine rules -/

/-- Every instruction ends with a code of the table of R172, DONE set and bits 6:4 zero. The table is
the spec's own inference; its rows for the frame kinds are the commands they run (log 3, log 4). -/
def Obligations.EveryInstructionReportsATableCode : Prop :=
  ∀ (i : Instr) (s : State), ∃ t, exec i s = .next t ∧
    (∃ code ∈ codesOf i, t.status = statusByte code) ∧ t.done = true ∧ t.statusRsv = 0

/-- The table of R40 (the spec's own inference): what each command writes on success and on failure,
and nothing else. -/
def Obligations.CommandsWriteOnlyTheirResults : Prop :=
  ∀ s t : State,
    (exec .crc16 s = .next t →
      keepsAllBut (fun off => atStatus off ∨ (t.status = 0x80 ∧ atCrcOut off)) s t) ∧
    (exec .buildRead s = .next t ∨ exec .buildWriteSingle s = .next t →
      keepsAllBut (fun off => atStatus off ∨ atOutLen off ∨
        (t.status = 0x80 ∧ (atCrcOut off ∨ atFrameOut off))) s t) ∧
    (exec .parseRead s = .next t →
      keepsAllBut (fun off => atStatus off ∨ atWordsLen off ∨
        (t.status = 0x80 ∧ atWordsOut t.wordsLen.toNat off)) s t) ∧
    (exec .parseWriteSingle s = .next t → keepsAllBut atStatus s t) ∧
    (∀ w, exec (.reservedCmd w) s = .next t → keepsAllBut atStatus s t)

/-- A command's results depend only on the registers R40 says it reads (the spec's own inference): two
states that agree on those end with the same results, whatever else differs, the free draws too. -/
def Obligations.ResultsDependOnlyOnOperands : Prop :=
  ∀ s₁ s₂ : State,
    (s₁.inLen = s₂.inLen →
      (s₁.inLen.toNat ≤ 256 → s₁.input s₁.inLen.toNat = s₂.input s₁.inLen.toNat) →
      ∃ t₁ t₂, exec .crc16 s₁ = .next t₁ ∧ exec .crc16 s₂ = .next t₂ ∧ t₁.status = t₂.status ∧
        (t₁.status = 0x80 → t₁.crcOut = t₂.crcOut)) ∧
    (s₁.addr = s₂.addr → s₁.fc = s₂.fc → s₁.start = s₂.start → s₁.cnt = s₂.cnt →
      ∃ t₁ t₂, exec .buildRead s₁ = .next t₁ ∧ exec .buildRead s₂ = .next t₂ ∧
        t₁.status = t₂.status ∧ t₁.outLen = t₂.outLen ∧
        (t₁.status = 0x80 → t₁.crcOut = t₂.crcOut ∧ t₁.frameOut = t₂.frameOut)) ∧
    (s₁.addr = s₂.addr → s₁.start = s₂.start → s₁.cnt = s₂.cnt →
      ∃ t₁ t₂, exec .buildWriteSingle s₁ = .next t₁ ∧ exec .buildWriteSingle s₂ = .next t₂ ∧
        t₁.status = t₂.status ∧ t₁.outLen = t₂.outLen ∧
        (t₁.status = 0x80 → t₁.crcOut = t₂.crcOut ∧ t₁.frameOut = t₂.frameOut)) ∧
    (s₁.addr = s₂.addr → s₁.fc = s₂.fc → s₁.cnt = s₂.cnt → s₁.inLen = s₂.inLen →
      (s₁.inLen.toNat ≤ 256 → s₁.input s₁.inLen.toNat = s₂.input s₁.inLen.toNat) →
      ∃ t₁ t₂, exec .parseRead s₁ = .next t₁ ∧ exec .parseRead s₂ = .next t₂ ∧
        t₁.status = t₂.status ∧ t₁.wordsLen = t₂.wordsLen ∧
        ∀ i < t₁.wordsLen.toNat, t₁.wordOut i = t₂.wordOut i) ∧
    (s₁.sentReq = s₂.sentReq → s₁.inLen = s₂.inLen →
      (s₁.inLen.toNat ≤ 256 → s₁.input s₁.inLen.toNat = s₂.input s₁.inLen.toNat) →
      ∃ t₁ t₂, exec .parseWriteSingle s₁ = .next t₁ ∧ exec .parseWriteSingle s₂ = .next t₂ ∧
        t₁.status = t₂.status)

/-- Results persist until the next command that writes them, or until reset (the spec's own inference,
R194): every step that changes one of them is such a command, its row's statement, or a reset. -/
def Obligations.ResultsPersist : Prop :=
  ∀ (s t : State) (a : HostAction) (rest : List HostAction),
    s.pending = a :: rest → step s = .next t → a ≠ .reset →
    (t.crcOut ≠ s.crcOut →
      a.instrBytes s.readData = some (.command, [0x00]) ∨
      a.instrBytes s.readData = some (.command, [0x01]) ∨
      a.instrBytes s.readData = some (.command, [0x02]) ∨ ∃ f, a = .request f) ∧
    (t.frameOut ≠ s.frameOut ∨ t.outLen ≠ s.outLen →
      a.instrBytes s.readData = some (.command, [0x01]) ∨
      a.instrBytes s.readData = some (.command, [0x02]) ∨ ∃ f, a = .request f) ∧
    (t.wordsLen ≠ s.wordsLen ∨ (∃ i < 128, t.wordOut i ≠ s.wordOut i) →
      a.instrBytes s.readData = some (.command, [0x03]) ∨ ∃ f, a = .response f)

/-- The invariant holds at reset. -/
def Obligations.ResultsInvariantAtReset : Prop := State.reset.Inv

/-- Every step keeps the invariant: memory canonical, STATUS a legal value, OUT_LEN 0 or 8 with a
request frame of R75 or R76 in FRAME_OUT when it is 8, WORDS_LEN at most WORDS_MAX with all the words
it counts written. -/
def Obligations.ResultsInvariantKeptByEveryStep : Prop :=
  ∀ s t : State, s.Inv → step s = .next t → t.Inv

/-- R170: the block never stops. Where every access still to come is one the interface admits, a step
answers a next state, and the same holds there. -/
def Obligations.AdmittedHostNeverStopsTheBlock : Prop :=
  ∀ s : State, s.admitted = true → ∃ t, step s = .next t ∧ t.admitted = true

/-- Every host program the interface admits runs to its end, one access a step (R59). -/
def Obligations.AdmittedProgramsRunToTheEnd : Prop :=
  ∀ s : State, s.admitted = true →
    ∃ t, run s.pending.length s = .next t ∧ t.pending = []
end

