-- ==== Sys2Proof/Laws/Bytes.lean ====
section
/-! SUPPORT. Laws of bytes and 16-bit values. -/

namespace Sys2Proof.Machine

@[simp] theorem hi8_u16 (h l : Byte) : hi8 (u16 h l) = h := by
  ext i hi
  have h8 : ¬ (8 + i < 8) := by omega
  have h16 : 8 + i < 16 ∧ i < 16 := by omega
  simp [hi8, u16, hi, h8, h16]

@[simp] theorem lo8_u16 (h l : Byte) : lo8 (u16 h l) = l := by
  ext i hi
  have h16 : i < 16 := by omega
  simp [lo8, u16, hi, h16]

@[simp] theorem u16_hi8_lo8 (v : Word) : u16 (hi8 v) (lo8 v) = v := by
  ext i hi
  by_cases h : i < 8
  · simp [hi8, lo8, u16, h, hi]
  · have h8 : 8 + (i - 8) = i := by omega
    have h8' : i - 8 < 8 := by omega
    simp [hi8, lo8, u16, h, hi, h8, h8']

/-- A pair of bytes and the 16-bit value it holds determine each other. -/
theorem u16_eq_iff (h l : Byte) (v : Word) : u16 h l = v ↔ h = hi8 v ∧ l = lo8 v := by
  constructor
  · rintro rfl
    simp
  · rintro ⟨rfl, rfl⟩
    simp

@[simp] theorem byteAt_cons_zero (b : Byte) (s : List Byte) : byteAt (b :: s) 0 = b := rfl

@[simp] theorem byteAt_cons_succ (b : Byte) (s : List Byte) (i : Nat) :
    byteAt (b :: s) (i + 1) = byteAt s i := by
  simp [byteAt]

theorem byteAt_append_left (s t : List Byte) (i : Nat) (h : i < s.length) :
    byteAt (s ++ t) i = byteAt s i := by
  exact List.getD_append _ _ _ _ h

theorem byteAt_append_right (s t : List Byte) (i : Nat) (h : s.length ≤ i) :
    byteAt (s ++ t) i = byteAt t (i - s.length) := by
  exact List.getD_append_right _ _ _ _ h

/-- Two byte sequences of one length with the same bytes are the same. -/
theorem ext_byteAt (s t : List Byte) (hlen : s.length = t.length)
    (h : ∀ i < s.length, byteAt s i = byteAt t i) : s = t := by
  apply List.ext_getElem hlen
  intro i hs ht
  have := h i hs
  rwa [byteAt, byteAt, List.getD_eq_getElem _ _ hs, List.getD_eq_getElem _ _ ht] at this

@[simp] theorem wordBytes_length (ws : List Word) : (wordBytes ws).length = 2 * ws.length := by
  induction ws with
  | nil => rfl
  | cons w ws ih => simp [wordBytes, ih]; omega

theorem wordBytes_hi (ws : List Word) (i : Nat) (h : i < ws.length) :
    byteAt (wordBytes ws) (2 * i) = hi8 ws[i] := by
  induction ws generalizing i with
  | nil => simp at h
  | cons w ws ih =>
    cases i with
    | zero => rfl
    | succ i => simpa [wordBytes, Nat.mul_succ] using ih i (by simpa using h)

theorem wordBytes_lo (ws : List Word) (i : Nat) (h : i < ws.length) :
    byteAt (wordBytes ws) (2 * i + 1) = lo8 ws[i] := by
  induction ws generalizing i with
  | nil => simp at h
  | cons w ws ih =>
    cases i with
    | zero => rfl
    | succ i => simpa [wordBytes, Nat.mul_succ] using ih i (by simpa using h)

@[simp] theorem flipBit_length (s : List Byte) (k : Nat) : (flipBit s k).length = s.length := by
  simp [flipBit]

end Sys2Proof.Machine
end

