-- ==== Sys2Proof/Laws/Crc.lean ====
section
/-! SUPPORT. Laws of the checksum. -/

namespace Sys2Proof.Machine

@[simp] theorem crcBits_zero (acc : Word) : crcBits 0 acc = acc := rfl

/-- The bit steps are `crcBit` repeated. -/
theorem crcBits_succ (n : Nat) (acc : Word) : crcBits (n + 1) acc = crcBits n (crcBit acc) := by
  simp only [crcBits, crcBit]
  split <;> rfl

@[simp] theorem crc16_nil : crc16 [] = 0xFFFF#16 := rfl

/-- The last byte is folded in last (R100). -/
theorem crc16_append_one (s : List Byte) (b : Byte) : crc16 (s ++ [b]) = crcByte (crc16 s) b := by
  simp [crc16, List.foldl_append]

theorem crc16_append (s t : List Byte) : crc16 (s ++ t) = t.foldl crcByte (crc16 s) := by
  simp [crc16, List.foldl_append]

@[simp] theorem trailer_length (c : Word) : (trailer c).length = 2 := rfl

@[simp] theorem withTrailer_length (body : List Byte) :
    (withTrailer body).length = body.length + 2 := by
  simp [withTrailer]

@[simp] theorem requestBody_length (a f : Byte) (s n : Word) :
    (requestBody a f s n).length = 6 := rfl

@[simp] theorem requestFrame_length (a f : Byte) (s n : Word) :
    (requestFrame a f s n).length = 8 := rfl

@[simp] theorem readResponse_length (a f : Byte) (ws : List Word) :
    (readResponse a f ws).length = 5 + 2 * ws.length := by
  simp [readResponse]; omega

/-- A request frame, byte by byte (spec/30_encoding.md R75, R76). -/
theorem requestFrame_eq (a f : Byte) (s n : Word) :
    requestFrame a f s n =
      [a, f, hi8 s, lo8 s, hi8 n, lo8 n, lo8 (crc16 (requestBody a f s n)),
        hi8 (crc16 (requestBody a f s n))] := rfl

end Sys2Proof.Machine
end

