-- ==== Sys2Proof/Laws/Decode.lean ====
section
/-! SUPPORT. Laws of the decoder's helpers. -/

namespace Sys2Proof

open Sys2Proof.Machine

/-- The decoder finds again the words and the trailer that end a read response (R77). -/
theorem splitWords_wordBytes (ws : List Word) (c : Word) :
    splitWords (wordBytes ws ++ trailer c) = some (ws, c) := by
  induction ws with
  | nil => simp [wordBytes, trailer, splitWords]
  | cons w ws ih =>
    rw [wordBytes, List.cons_append, List.cons_append, splitWords, ih]
    · simp
    · intro h
      simpa [trailer] using congrArg List.length h

/-- What the decoder splits is words and a trailer. -/
theorem splitWords_eq_some (l : List Byte) (ws : List Word) (c : Word)
    (h : splitWords l = some (ws, c)) : l = wordBytes ws ++ trailer c := by
  induction l using splitWords.induct generalizing ws with
  | case1 a b =>
    simp only [splitWords, Option.some.injEq, Prod.mk.injEq] at h
    obtain ⟨rfl, rfl⟩ := h
    simp [wordBytes, trailer]
  | case2 a b l h1 ih =>
    rw [splitWords.eq_2 _ _ _ h1] at h
    cases hx : splitWords l with
    | none => simp [hx] at h
    | some p =>
      obtain ⟨ws', c'⟩ := p
      simp only [hx, Option.map_some, Option.some.injEq, Prod.mk.injEq] at h
      obtain ⟨rfl, rfl⟩ := h
      simp [wordBytes, ← ih _ hx]
  | case3 l h1 h2 =>
    rw [splitWords] at h
    · cases h
    · exact h1
    · exact h2

/-- Decoding a command word gives the instruction whose encoding is that byte (R71, R72). -/
theorem decodeCommand_encode (b : Byte) :
    (decodeCommand b).wf = true ∧ encode (decodeCommand b) = (.command, [b]) := by
  have h : ∀ b : Byte, (decodeCommand b).wf = true ∧
      encode (decodeCommand b) = (.command, [b]) := by decide
  exact h b

/-- A reserved word decodes to itself (R72). -/
theorem decodeCommand_reserved (b : Byte) (h : 5 ≤ b.toNat) : decodeCommand b = .reservedCmd b := by
  unfold decodeCommand
  split <;> first | omega | rfl

/-- What the decoder reads from a request frame's bytes (R75, R76). -/
theorem decodeRequest_cases (f : List Byte) (i : Instr) (h : decodeRequest f = .ok i) :
    ∃ a st n, (i = .readReqFc03 a st n ∨ i = .readReqFc04 a st n ∨ i = .writeSingleReq a st n) ∧
      encode i = (.request, f) := by
  unfold decodeRequest at h
  split at h
  · split_ifs at h with hc h3 h4 h6 <;> cases h <;> subst_vars <;> rw [not_not, u16_eq_iff] at hc
    · exact ⟨_, _, _, .inl rfl, by simp [encode, requestFrame_eq, requestBody, hc]⟩
    · exact ⟨_, _, _, .inr (.inl rfl), by simp [encode, requestFrame_eq, requestBody, hc]⟩
    · exact ⟨_, _, _, .inr (.inr rfl), by simp [encode, requestFrame_eq, requestBody, hc]⟩
  · cases h

/-- What the decoder reads from a response frame's bytes (R77, R78). -/
theorem decodeResponse_cases (f : List Byte) (i : Instr) (h : decodeResponse f = .ok i) :
    ((∃ a c n ws crc, i = .readResp a c n ws crc ∧ ws.length ≤ 125) ∨
      (∃ a c r v crc, i = .writeSingleResp a c r v crc)) ∧
      encode i = (.response, f) := by
  unfold decodeResponse at h
  split_ifs at h with hl
  have hl' : f.length ≤ 256 := Nat.le_of_not_lt hl
  split at h
  · cases h
    refine ⟨.inr ⟨_, _, _, _, _, rfl⟩, ?_⟩
    simp [encode, writeSingleRespBytes, requestBody, trailer]
  · split at h
    · rename_i ws c hs
      cases h
      have := splitWords_eq_some _ _ _ hs
      subst this
      simp only [List.length_cons, List.length_append, wordBytes_length, trailer_length] at hl'
      exact ⟨.inl ⟨_, _, _, _, _, rfl, by omega⟩, rfl⟩
    · cases h
  · cases h

end Sys2Proof
end

