-- ==== Sys2Proof/Laws/Memory.lean ====
section
/-! SUPPORT. Laws of the buffers' memory: read after write, writes elsewhere, canonical form. -/

namespace Sys2Proof.Machine

@[simp] theorem Memory.lookup_insert_self (m : Memory) (off : Nat) (b : Byte) :
    Memory.lookup (Memory.insert m off b) off = some b := by
  induction m with
  | nil => simp [Memory.insert, Memory.lookup]
  | cons c m ih =>
    obtain ⟨k, v⟩ := c
    simp only [Memory.insert]
    split
    · simp [Memory.lookup]
    · split
      · simp [Memory.lookup]
      · simp [Memory.lookup, *]

theorem Memory.lookup_insert_other (m : Memory) (off off' : Nat) (b : Byte) (h : off' ≠ off) :
    Memory.lookup (Memory.insert m off b) off' = Memory.lookup m off' := by
  induction m with
  | nil => simp [Memory.insert, Memory.lookup, h.symm]
  | cons c m ih =>
    obtain ⟨k, v⟩ := c
    simp only [Memory.insert]
    split
    · simp [Memory.lookup, h.symm]
    · split
      · rename_i hk
        subst hk
        simp [Memory.lookup, h.symm]
      · simp [Memory.lookup, ih]

theorem Memory.lookup_writeBytes_outside (m : Memory) (off off' : Nat) (bs : List Byte)
    (h : off' < off ∨ off + bs.length ≤ off') :
    Memory.lookup (Memory.writeBytes m off bs) off' = Memory.lookup m off' := by
  induction bs generalizing m off with
  | nil => rfl
  | cons b bs ih =>
    simp only [List.length_cons] at h
    rw [Memory.writeBytes, ih _ _ (by omega), Memory.lookup_insert_other _ _ _ _ (by omega)]

theorem Memory.lookup_writeBytes_inside (m : Memory) (off i : Nat) (bs : List Byte)
    (h : i < bs.length) :
    Memory.lookup (Memory.writeBytes m off bs) (off + i) = some bs[i] := by
  induction bs generalizing m off i with
  | nil => simp at h
  | cons b bs ih =>
    cases i with
    | zero => rw [Memory.writeBytes, Memory.lookup_writeBytes_outside _ _ _ _ (by omega)]; simp
    | succ i =>
      have := ih (Memory.insert m off b) (off + 1) i (by simpa using h)
      rw [Memory.writeBytes, show off + (i + 1) = off + 1 + i by omega, this]
      rfl

/-- A byte that is listed stays listed whatever is written. -/
theorem Memory.lookup_isSome_writeBytes (m : Memory) (off off' : Nat) (bs : List Byte)
    (h : (Memory.lookup m off').isSome = true) :
    (Memory.lookup (Memory.writeBytes m off bs) off').isSome = true := by
  induction bs generalizing m off with
  | nil => exact h
  | cons b bs ih =>
    apply ih
    by_cases he : off' = off
    · simp [he]
    · rwa [Memory.lookup_insert_other _ _ _ _ he]

theorem Memory.mem_insert (m : Memory) (off : Nat) (b : Byte) (c : Host.Cell)
    (h : c ∈ Memory.insert m off b) : c = (off, b) ∨ c ∈ m := by
  induction m with
  | nil => simpa [Memory.insert] using h
  | cons d m ih =>
    obtain ⟨k, v⟩ := d
    simp only [Memory.insert] at h
    split at h
    · simpa using h
    · split at h <;> simp only [List.mem_cons] at h ⊢ <;> tauto

/-- A write keeps the canonical form. -/
theorem Memory.wf_insert (m : Memory) (off : Nat) (b : Byte) (hm : Memory.wf m)
    (hoff : isBufferOffset off = true) : Memory.wf (Memory.insert m off b) := by
  constructor
  · have hp := hm.1
    clear hm
    induction m with
    | nil => simp [Memory.insert]
    | cons c m ih =>
      obtain ⟨k, v⟩ := c
      rw [List.pairwise_cons] at hp
      simp only [Memory.insert]
      split
      · refine List.pairwise_cons.mpr ⟨fun d hd => ?_, List.pairwise_cons.mpr hp⟩
        rcases List.mem_cons.mp hd with rfl | hd
        · assumption
        · exact Nat.lt_trans (by assumption) (hp.1 d hd)
      · split
        · rename_i hk
          exact List.pairwise_cons.mpr ⟨fun d hd => by simpa [hk] using hp.1 d hd, hp.2⟩
        · refine List.pairwise_cons.mpr ⟨fun d hd => ?_, ih hp.2⟩
          rcases Memory.mem_insert _ _ _ _ hd with rfl | hd
          · show k < off
            omega
          · exact hp.1 d hd
  · intro c hc
    rcases Memory.mem_insert _ _ _ _ hc with rfl | hc
    · exact hoff
    · exact hm.2 c hc

theorem Memory.wf_writeBytes (m : Memory) (off : Nat) (bs : List Byte) (hm : Memory.wf m)
    (hoff : ∀ i < bs.length, isBufferOffset (off + i) = true) :
    Memory.wf (Memory.writeBytes m off bs) := by
  induction bs generalizing m off with
  | nil => exact hm
  | cons b bs ih =>
    refine ih _ _ (Memory.wf_insert _ _ _ hm (hoff 0 (by simp))) fun i hi => ?_
    have := hoff (i + 1) (by simpa using hi)
    rwa [show off + (i + 1) = off + 1 + i by omega] at this

/-- Reading one buffer byte after writing another. -/
theorem State.bufByte_congr (s t : State) (off : Nat)
    (hm : Memory.lookup t.mem off = Memory.lookup s.mem off) (hd : t.draws = s.draws) :
    t.bufByte off = s.bufByte off := by
  simp [State.bufByte, hm, hd]

theorem State.bufByte_of_lookup (s : State) (off : Nat) (b : Byte)
    (h : Memory.lookup s.mem off = some b) : s.bufByte off = b := by
  simp [State.bufByte, h]

end Sys2Proof.Machine
end

