-- ==== Sys2Proof/Laws/State.lean ====
section
/-! SUPPORT. What each shared update of State does to each field, so that no proof unfolds one. -/

namespace Sys2Proof.Machine

@[simp] theorem State.finish_cmd (s : State) (code : StatusCode) :
    (s.finish code).cmd = s.cmd := rfl
@[simp] theorem State.finish_status (s : State) (code : StatusCode) :
    (s.finish code).status = statusByte code := rfl
@[simp] theorem State.finish_addr (s : State) (code : StatusCode) :
    (s.finish code).addr = s.addr := rfl
@[simp] theorem State.finish_fc (s : State) (code : StatusCode) : (s.finish code).fc = s.fc := rfl
@[simp] theorem State.finish_startHi (s : State) (code : StatusCode) :
    (s.finish code).startHi = s.startHi := rfl
@[simp] theorem State.finish_startLo (s : State) (code : StatusCode) :
    (s.finish code).startLo = s.startLo := rfl
@[simp] theorem State.finish_cntHi (s : State) (code : StatusCode) :
    (s.finish code).cntHi = s.cntHi := rfl
@[simp] theorem State.finish_cntLo (s : State) (code : StatusCode) :
    (s.finish code).cntLo = s.cntLo := rfl
@[simp] theorem State.finish_inLenHi (s : State) (code : StatusCode) :
    (s.finish code).inLenHi = s.inLenHi := rfl
@[simp] theorem State.finish_inLenLo (s : State) (code : StatusCode) :
    (s.finish code).inLenLo = s.inLenLo := rfl
@[simp] theorem State.finish_sentReq (s : State) (code : StatusCode) :
    (s.finish code).sentReq = s.sentReq := rfl
@[simp] theorem State.finish_crcOutHi (s : State) (code : StatusCode) :
    (s.finish code).crcOutHi = s.crcOutHi := rfl
@[simp] theorem State.finish_crcOutLo (s : State) (code : StatusCode) :
    (s.finish code).crcOutLo = s.crcOutLo := rfl
@[simp] theorem State.finish_outLen (s : State) (code : StatusCode) :
    (s.finish code).outLen = s.outLen := rfl
@[simp] theorem State.finish_wordsLen (s : State) (code : StatusCode) :
    (s.finish code).wordsLen = s.wordsLen := rfl
@[simp] theorem State.finish_mem (s : State) (code : StatusCode) :
    (s.finish code).mem = s.mem := rfl
@[simp] theorem State.finish_draws (s : State) (code : StatusCode) :
    (s.finish code).draws = s.draws := rfl
@[simp] theorem State.finish_readData (s : State) (code : StatusCode) :
    (s.finish code).readData = s.readData := rfl
@[simp] theorem State.finish_pending (s : State) (code : StatusCode) :
    (s.finish code).pending = s.pending := rfl

@[simp] theorem State.setCrcOut_cmd (s : State) (c : Word) : (s.setCrcOut c).cmd = s.cmd := rfl
@[simp] theorem State.setCrcOut_status (s : State) (c : Word) :
    (s.setCrcOut c).status = s.status := rfl
@[simp] theorem State.setCrcOut_addr (s : State) (c : Word) : (s.setCrcOut c).addr = s.addr := rfl
@[simp] theorem State.setCrcOut_fc (s : State) (c : Word) : (s.setCrcOut c).fc = s.fc := rfl
@[simp] theorem State.setCrcOut_startHi (s : State) (c : Word) :
    (s.setCrcOut c).startHi = s.startHi := rfl
@[simp] theorem State.setCrcOut_startLo (s : State) (c : Word) :
    (s.setCrcOut c).startLo = s.startLo := rfl
@[simp] theorem State.setCrcOut_cntHi (s : State) (c : Word) :
    (s.setCrcOut c).cntHi = s.cntHi := rfl
@[simp] theorem State.setCrcOut_cntLo (s : State) (c : Word) :
    (s.setCrcOut c).cntLo = s.cntLo := rfl
@[simp] theorem State.setCrcOut_inLenHi (s : State) (c : Word) :
    (s.setCrcOut c).inLenHi = s.inLenHi := rfl
@[simp] theorem State.setCrcOut_inLenLo (s : State) (c : Word) :
    (s.setCrcOut c).inLenLo = s.inLenLo := rfl
@[simp] theorem State.setCrcOut_sentReq (s : State) (c : Word) :
    (s.setCrcOut c).sentReq = s.sentReq := rfl
@[simp] theorem State.setCrcOut_crcOutHi (s : State) (c : Word) :
    (s.setCrcOut c).crcOutHi = hi8 c := rfl
@[simp] theorem State.setCrcOut_crcOutLo (s : State) (c : Word) :
    (s.setCrcOut c).crcOutLo = lo8 c := rfl
@[simp] theorem State.setCrcOut_outLen (s : State) (c : Word) :
    (s.setCrcOut c).outLen = s.outLen := rfl
@[simp] theorem State.setCrcOut_wordsLen (s : State) (c : Word) :
    (s.setCrcOut c).wordsLen = s.wordsLen := rfl
@[simp] theorem State.setCrcOut_mem (s : State) (c : Word) : (s.setCrcOut c).mem = s.mem := rfl
@[simp] theorem State.setCrcOut_draws (s : State) (c : Word) :
    (s.setCrcOut c).draws = s.draws := rfl
@[simp] theorem State.setCrcOut_readData (s : State) (c : Word) :
    (s.setCrcOut c).readData = s.readData := rfl
@[simp] theorem State.setCrcOut_pending (s : State) (c : Word) :
    (s.setCrcOut c).pending = s.pending := rfl

@[simp] theorem State.succeedBuild_cmd (s : State) (frame : List Byte) :
    (s.succeedBuild frame).cmd = s.cmd := rfl
@[simp] theorem State.succeedBuild_status (s : State) (frame : List Byte) :
    (s.succeedBuild frame).status = statusByte .ok := rfl
@[simp] theorem State.succeedBuild_addr (s : State) (frame : List Byte) :
    (s.succeedBuild frame).addr = s.addr := rfl
@[simp] theorem State.succeedBuild_fc (s : State) (frame : List Byte) :
    (s.succeedBuild frame).fc = s.fc := rfl
@[simp] theorem State.succeedBuild_startHi (s : State) (frame : List Byte) :
    (s.succeedBuild frame).startHi = s.startHi := rfl
@[simp] theorem State.succeedBuild_startLo (s : State) (frame : List Byte) :
    (s.succeedBuild frame).startLo = s.startLo := rfl
@[simp] theorem State.succeedBuild_cntHi (s : State) (frame : List Byte) :
    (s.succeedBuild frame).cntHi = s.cntHi := rfl
@[simp] theorem State.succeedBuild_cntLo (s : State) (frame : List Byte) :
    (s.succeedBuild frame).cntLo = s.cntLo := rfl
@[simp] theorem State.succeedBuild_inLenHi (s : State) (frame : List Byte) :
    (s.succeedBuild frame).inLenHi = s.inLenHi := rfl
@[simp] theorem State.succeedBuild_inLenLo (s : State) (frame : List Byte) :
    (s.succeedBuild frame).inLenLo = s.inLenLo := rfl
@[simp] theorem State.succeedBuild_sentReq (s : State) (frame : List Byte) :
    (s.succeedBuild frame).sentReq = s.sentReq := rfl
@[simp] theorem State.succeedBuild_crcOutHi (s : State) (frame : List Byte) :
    (s.succeedBuild frame).crcOutHi = byteAt frame 7 := rfl
@[simp] theorem State.succeedBuild_crcOutLo (s : State) (frame : List Byte) :
    (s.succeedBuild frame).crcOutLo = byteAt frame 6 := rfl
@[simp] theorem State.succeedBuild_outLen (s : State) (frame : List Byte) :
    (s.succeedBuild frame).outLen = 8 := rfl
@[simp] theorem State.succeedBuild_wordsLen (s : State) (frame : List Byte) :
    (s.succeedBuild frame).wordsLen = s.wordsLen := rfl
@[simp] theorem State.succeedBuild_mem (s : State) (frame : List Byte) :
    (s.succeedBuild frame).mem = Memory.writeBytes s.mem frameOutBase frame := rfl
@[simp] theorem State.succeedBuild_draws (s : State) (frame : List Byte) :
    (s.succeedBuild frame).draws = s.draws := rfl
@[simp] theorem State.succeedBuild_readData (s : State) (frame : List Byte) :
    (s.succeedBuild frame).readData = s.readData := rfl
@[simp] theorem State.succeedBuild_pending (s : State) (frame : List Byte) :
    (s.succeedBuild frame).pending = s.pending := rfl

@[simp] theorem State.failBuild_cmd (s : State) : s.failBuild.cmd = s.cmd := rfl
@[simp] theorem State.failBuild_status (s : State) :
    s.failBuild.status = statusByte .invalidArgument := rfl
@[simp] theorem State.failBuild_addr (s : State) : s.failBuild.addr = s.addr := rfl
@[simp] theorem State.failBuild_fc (s : State) : s.failBuild.fc = s.fc := rfl
@[simp] theorem State.failBuild_startHi (s : State) : s.failBuild.startHi = s.startHi := rfl
@[simp] theorem State.failBuild_startLo (s : State) : s.failBuild.startLo = s.startLo := rfl
@[simp] theorem State.failBuild_cntHi (s : State) : s.failBuild.cntHi = s.cntHi := rfl
@[simp] theorem State.failBuild_cntLo (s : State) : s.failBuild.cntLo = s.cntLo := rfl
@[simp] theorem State.failBuild_inLenHi (s : State) : s.failBuild.inLenHi = s.inLenHi := rfl
@[simp] theorem State.failBuild_inLenLo (s : State) : s.failBuild.inLenLo = s.inLenLo := rfl
@[simp] theorem State.failBuild_sentReq (s : State) : s.failBuild.sentReq = s.sentReq := rfl
@[simp] theorem State.failBuild_crcOutHi (s : State) : s.failBuild.crcOutHi = s.crcOutHi := rfl
@[simp] theorem State.failBuild_crcOutLo (s : State) : s.failBuild.crcOutLo = s.crcOutLo := rfl
@[simp] theorem State.failBuild_outLen (s : State) : s.failBuild.outLen = 0 := rfl
@[simp] theorem State.failBuild_wordsLen (s : State) : s.failBuild.wordsLen = s.wordsLen := rfl
@[simp] theorem State.failBuild_mem (s : State) : s.failBuild.mem = s.mem := rfl
@[simp] theorem State.failBuild_draws (s : State) : s.failBuild.draws = s.draws := rfl
@[simp] theorem State.failBuild_readData (s : State) : s.failBuild.readData = s.readData := rfl
@[simp] theorem State.failBuild_pending (s : State) : s.failBuild.pending = s.pending := rfl

@[simp] theorem State.succeedRead_cmd (s : State) (words : List Word) :
    (s.succeedRead words).cmd = s.cmd := rfl
@[simp] theorem State.succeedRead_status (s : State) (words : List Word) :
    (s.succeedRead words).status = statusByte .ok := rfl
@[simp] theorem State.succeedRead_addr (s : State) (words : List Word) :
    (s.succeedRead words).addr = s.addr := rfl
@[simp] theorem State.succeedRead_fc (s : State) (words : List Word) :
    (s.succeedRead words).fc = s.fc := rfl
@[simp] theorem State.succeedRead_startHi (s : State) (words : List Word) :
    (s.succeedRead words).startHi = s.startHi := rfl
@[simp] theorem State.succeedRead_startLo (s : State) (words : List Word) :
    (s.succeedRead words).startLo = s.startLo := rfl
@[simp] theorem State.succeedRead_cntHi (s : State) (words : List Word) :
    (s.succeedRead words).cntHi = s.cntHi := rfl
@[simp] theorem State.succeedRead_cntLo (s : State) (words : List Word) :
    (s.succeedRead words).cntLo = s.cntLo := rfl
@[simp] theorem State.succeedRead_inLenHi (s : State) (words : List Word) :
    (s.succeedRead words).inLenHi = s.inLenHi := rfl
@[simp] theorem State.succeedRead_inLenLo (s : State) (words : List Word) :
    (s.succeedRead words).inLenLo = s.inLenLo := rfl
@[simp] theorem State.succeedRead_sentReq (s : State) (words : List Word) :
    (s.succeedRead words).sentReq = s.sentReq := rfl
@[simp] theorem State.succeedRead_crcOutHi (s : State) (words : List Word) :
    (s.succeedRead words).crcOutHi = s.crcOutHi := rfl
@[simp] theorem State.succeedRead_crcOutLo (s : State) (words : List Word) :
    (s.succeedRead words).crcOutLo = s.crcOutLo := rfl
@[simp] theorem State.succeedRead_outLen (s : State) (words : List Word) :
    (s.succeedRead words).outLen = s.outLen := rfl
@[simp] theorem State.succeedRead_wordsLen (s : State) (words : List Word) :
    (s.succeedRead words).wordsLen = BitVec.ofNat 8 words.length := rfl
@[simp] theorem State.succeedRead_mem (s : State) (words : List Word) :
    (s.succeedRead words).mem = Memory.writeBytes s.mem wordsOutBase (wordBytes words) := rfl
@[simp] theorem State.succeedRead_draws (s : State) (words : List Word) :
    (s.succeedRead words).draws = s.draws := rfl
@[simp] theorem State.succeedRead_readData (s : State) (words : List Word) :
    (s.succeedRead words).readData = s.readData := rfl
@[simp] theorem State.succeedRead_pending (s : State) (words : List Word) :
    (s.succeedRead words).pending = s.pending := rfl

@[simp] theorem State.failRead_cmd (s : State) (code : StatusCode) :
    (s.failRead code).cmd = s.cmd := rfl
@[simp] theorem State.failRead_status (s : State) (code : StatusCode) :
    (s.failRead code).status = statusByte code := rfl
@[simp] theorem State.failRead_addr (s : State) (code : StatusCode) :
    (s.failRead code).addr = s.addr := rfl
@[simp] theorem State.failRead_fc (s : State) (code : StatusCode) :
    (s.failRead code).fc = s.fc := rfl
@[simp] theorem State.failRead_startHi (s : State) (code : StatusCode) :
    (s.failRead code).startHi = s.startHi := rfl
@[simp] theorem State.failRead_startLo (s : State) (code : StatusCode) :
    (s.failRead code).startLo = s.startLo := rfl
@[simp] theorem State.failRead_cntHi (s : State) (code : StatusCode) :
    (s.failRead code).cntHi = s.cntHi := rfl
@[simp] theorem State.failRead_cntLo (s : State) (code : StatusCode) :
    (s.failRead code).cntLo = s.cntLo := rfl
@[simp] theorem State.failRead_inLenHi (s : State) (code : StatusCode) :
    (s.failRead code).inLenHi = s.inLenHi := rfl
@[simp] theorem State.failRead_inLenLo (s : State) (code : StatusCode) :
    (s.failRead code).inLenLo = s.inLenLo := rfl
@[simp] theorem State.failRead_sentReq (s : State) (code : StatusCode) :
    (s.failRead code).sentReq = s.sentReq := rfl
@[simp] theorem State.failRead_crcOutHi (s : State) (code : StatusCode) :
    (s.failRead code).crcOutHi = s.crcOutHi := rfl
@[simp] theorem State.failRead_crcOutLo (s : State) (code : StatusCode) :
    (s.failRead code).crcOutLo = s.crcOutLo := rfl
@[simp] theorem State.failRead_outLen (s : State) (code : StatusCode) :
    (s.failRead code).outLen = s.outLen := rfl
@[simp] theorem State.failRead_wordsLen (s : State) (code : StatusCode) :
    (s.failRead code).wordsLen = 0 := rfl
@[simp] theorem State.failRead_mem (s : State) (code : StatusCode) :
    (s.failRead code).mem = s.mem := rfl
@[simp] theorem State.failRead_draws (s : State) (code : StatusCode) :
    (s.failRead code).draws = s.draws := rfl
@[simp] theorem State.failRead_readData (s : State) (code : StatusCode) :
    (s.failRead code).readData = s.readData := rfl
@[simp] theorem State.failRead_pending (s : State) (code : StatusCode) :
    (s.failRead code).pending = s.pending := rfl

@[simp] theorem State.placeInput_cmd (s : State) (bytes : List Byte) :
    (s.placeInput bytes).cmd = s.cmd := rfl
@[simp] theorem State.placeInput_status (s : State) (bytes : List Byte) :
    (s.placeInput bytes).status = s.status := rfl
@[simp] theorem State.placeInput_addr (s : State) (bytes : List Byte) :
    (s.placeInput bytes).addr = s.addr := rfl
@[simp] theorem State.placeInput_fc (s : State) (bytes : List Byte) :
    (s.placeInput bytes).fc = s.fc := rfl
@[simp] theorem State.placeInput_startHi (s : State) (bytes : List Byte) :
    (s.placeInput bytes).startHi = s.startHi := rfl
@[simp] theorem State.placeInput_startLo (s : State) (bytes : List Byte) :
    (s.placeInput bytes).startLo = s.startLo := rfl
@[simp] theorem State.placeInput_cntHi (s : State) (bytes : List Byte) :
    (s.placeInput bytes).cntHi = s.cntHi := rfl
@[simp] theorem State.placeInput_cntLo (s : State) (bytes : List Byte) :
    (s.placeInput bytes).cntLo = s.cntLo := rfl
@[simp] theorem State.placeInput_inLenHi (s : State) (bytes : List Byte) :
    (s.placeInput bytes).inLenHi = hi8 (BitVec.ofNat 16 bytes.length) := rfl
@[simp] theorem State.placeInput_inLenLo (s : State) (bytes : List Byte) :
    (s.placeInput bytes).inLenLo = lo8 (BitVec.ofNat 16 bytes.length) := rfl
@[simp] theorem State.placeInput_sentReq (s : State) (bytes : List Byte) :
    (s.placeInput bytes).sentReq = s.sentReq := rfl
@[simp] theorem State.placeInput_crcOutHi (s : State) (bytes : List Byte) :
    (s.placeInput bytes).crcOutHi = s.crcOutHi := rfl
@[simp] theorem State.placeInput_crcOutLo (s : State) (bytes : List Byte) :
    (s.placeInput bytes).crcOutLo = s.crcOutLo := rfl
@[simp] theorem State.placeInput_outLen (s : State) (bytes : List Byte) :
    (s.placeInput bytes).outLen = s.outLen := rfl
@[simp] theorem State.placeInput_wordsLen (s : State) (bytes : List Byte) :
    (s.placeInput bytes).wordsLen = s.wordsLen := rfl
@[simp] theorem State.placeInput_mem (s : State) (bytes : List Byte) :
    (s.placeInput bytes).mem = Memory.writeBytes s.mem inBufBase (bytes.take Params.block.frameMax) := rfl
@[simp] theorem State.placeInput_draws (s : State) (bytes : List Byte) :
    (s.placeInput bytes).draws = s.draws := rfl
@[simp] theorem State.placeInput_readData (s : State) (bytes : List Byte) :
    (s.placeInput bytes).readData = s.readData := rfl
@[simp] theorem State.placeInput_pending (s : State) (bytes : List Byte) :
    (s.placeInput bytes).pending = s.pending := rfl

@[simp] theorem State.resetEvent_cmd (s : State) : s.resetEvent.cmd = State.reset.cmd := rfl
@[simp] theorem State.resetEvent_status (s : State) :
    s.resetEvent.status = State.reset.status := rfl
@[simp] theorem State.resetEvent_addr (s : State) : s.resetEvent.addr = State.reset.addr := rfl
@[simp] theorem State.resetEvent_fc (s : State) : s.resetEvent.fc = State.reset.fc := rfl
@[simp] theorem State.resetEvent_startHi (s : State) :
    s.resetEvent.startHi = State.reset.startHi := rfl
@[simp] theorem State.resetEvent_startLo (s : State) :
    s.resetEvent.startLo = State.reset.startLo := rfl
@[simp] theorem State.resetEvent_cntHi (s : State) : s.resetEvent.cntHi = State.reset.cntHi := rfl
@[simp] theorem State.resetEvent_cntLo (s : State) : s.resetEvent.cntLo = State.reset.cntLo := rfl
@[simp] theorem State.resetEvent_inLenHi (s : State) :
    s.resetEvent.inLenHi = State.reset.inLenHi := rfl
@[simp] theorem State.resetEvent_inLenLo (s : State) :
    s.resetEvent.inLenLo = State.reset.inLenLo := rfl
@[simp] theorem State.resetEvent_sentReq (s : State) :
    s.resetEvent.sentReq = State.reset.sentReq := rfl
@[simp] theorem State.resetEvent_crcOutHi (s : State) :
    s.resetEvent.crcOutHi = State.reset.crcOutHi := rfl
@[simp] theorem State.resetEvent_crcOutLo (s : State) :
    s.resetEvent.crcOutLo = State.reset.crcOutLo := rfl
@[simp] theorem State.resetEvent_outLen (s : State) :
    s.resetEvent.outLen = State.reset.outLen := rfl
@[simp] theorem State.resetEvent_wordsLen (s : State) :
    s.resetEvent.wordsLen = State.reset.wordsLen := rfl
@[simp] theorem State.resetEvent_mem (s : State) : s.resetEvent.mem = State.reset.mem := rfl
@[simp] theorem State.resetEvent_draws (s : State) : s.resetEvent.draws = s.draws + 1 := rfl
@[simp] theorem State.resetEvent_readData (s : State) : s.resetEvent.readData = s.readData := rfl
@[simp] theorem State.resetEvent_pending (s : State) : s.resetEvent.pending = s.pending := rfl

end Sys2Proof.Machine
end

