-- ==== Sys2Proof/Laws/Ops.lean ====
section
/-! SUPPORT. Laws of the register space, of the buffers as sequences, and of the shared operations. -/

namespace Sys2Proof.Machine

/-! ### The register map at each named offset (spec/30_encoding.md R73) -/

section
variable (p : Params) (s : State) (v : Byte)

@[simp] theorem memRead_cmd : s.memRead p 0x000 = s.cmd := rfl
@[simp] theorem memRead_status : s.memRead p 0x001 = s.status := rfl
@[simp] theorem memRead_addr : s.memRead p 0x002 = s.addr := rfl
@[simp] theorem memRead_fc : s.memRead p 0x003 = s.fc := rfl
@[simp] theorem memRead_startHi : s.memRead p 0x004 = s.startHi := rfl
@[simp] theorem memRead_startLo : s.memRead p 0x005 = s.startLo := rfl
@[simp] theorem memRead_cntHi : s.memRead p 0x006 = s.cntHi := rfl
@[simp] theorem memRead_cntLo : s.memRead p 0x007 = s.cntLo := rfl
@[simp] theorem memRead_inLenHi : s.memRead p 0x008 = s.inLenHi := rfl
@[simp] theorem memRead_inLenLo : s.memRead p 0x009 = s.inLenLo := rfl
@[simp] theorem memRead_crcOutHi : s.memRead p 0x00A = s.crcOutHi := rfl
@[simp] theorem memRead_crcOutLo : s.memRead p 0x00B = s.crcOutLo := rfl
@[simp] theorem memRead_outLen : s.memRead p 0x00C = s.outLen := rfl
@[simp] theorem memRead_wordsLen : s.memRead p 0x00D = s.wordsLen := rfl

@[simp] theorem memStore_cmd : s.memStore p 0x000 v = { s with cmd := v } := rfl
@[simp] theorem memStore_addr : s.memStore p 0x002 v = { s with addr := v } := rfl
@[simp] theorem memStore_fc : s.memStore p 0x003 v = { s with fc := v } := rfl
@[simp] theorem memStore_startHi : s.memStore p 0x004 v = { s with startHi := v } := rfl
@[simp] theorem memStore_startLo : s.memStore p 0x005 v = { s with startLo := v } := rfl
@[simp] theorem memStore_cntHi : s.memStore p 0x006 v = { s with cntHi := v } := rfl
@[simp] theorem memStore_cntLo : s.memStore p 0x007 v = { s with cntLo := v } := rfl
@[simp] theorem memStore_inLenHi : s.memStore p 0x008 v = { s with inLenHi := v } := rfl
@[simp] theorem memStore_inLenLo : s.memStore p 0x009 v = { s with inLenLo := v } := rfl

end

theorem regAt_sentReq (p : Params) (k : Nat) (h : k < 6) :
    regAt p (0x010 + k) = .sentReq ⟨k, h⟩ := by
  have : k = 0 ∨ k = 1 ∨ k = 2 ∨ k = 3 ∨ k = 4 ∨ k = 5 := by omega
  rcases this with rfl | rfl | rfl | rfl | rfl | rfl <;> rfl

theorem regAt_frameOut (p : Params) (k : Nat) (h : k < 8) :
    regAt p (frameOutBase + k) = .frameOut k := by
  have : k = 0 ∨ k = 1 ∨ k = 2 ∨ k = 3 ∨ k = 4 ∨ k = 5 ∨ k = 6 ∨ k = 7 := by omega
  rcases this with rfl | rfl | rfl | rfl | rfl | rfl | rfl | rfl <;> rfl

theorem frameOutBase_eq : frameOutBase = 24 := rfl
theorem inBufBase_eq : inBufBase = 256 := rfl
theorem wordsOutBase_eq : wordsOutBase = 512 := rfl

theorem regAt_inBuf (p : Params) (k : Nat) (h : k < p.frameMax) :
    regAt p (inBufBase + k) = .inBuf k := by
  have e := inBufBase_eq
  have e' := frameOutBase_eq
  unfold regAt
  rw [if_neg (by omega), dif_neg (by omega), if_neg (by omega), if_pos (by omega)]
  simp

theorem regAt_wordsOut (p : Params) (k : Nat) (hp : p.frameMax ≤ 256) (h : k < 256) :
    regAt p (wordsOutBase + k) = .wordsOut k := by
  have e := inBufBase_eq
  have e' := frameOutBase_eq
  have e'' := wordsOutBase_eq
  unfold regAt
  rw [if_neg (by omega), dif_neg (by omega), if_neg (by omega), if_neg (by omega),
    if_pos (by omega)]
  simp

/-- What an offset names, range by range (R73). -/
theorem regAt_cases (p : Params) (off : Nat) :
    (off < 0x00E ∧ regAt p off = namedRegs.getD off .reserved) ∨
    (∃ k : Fin 6, off = 0x010 + k.val ∧ regAt p off = .sentReq k) ∨
    (∃ k < 8, off = frameOutBase + k ∧ regAt p off = .frameOut k) ∨
    (∃ k < p.frameMax, off = inBufBase + k ∧ regAt p off = .inBuf k) ∨
    (∃ k < 256, off = wordsOutBase + k ∧ regAt p off = .wordsOut k) ∨
    (0x00E ≤ off ∧ regAt p off = .reserved) := by
  unfold regAt
  split_ifs with h0 hs hf hi hw
  · exact .inl ⟨h0, rfl⟩
  · exact .inr (.inl ⟨⟨off - 0x010, by omega⟩, by simp; omega, rfl⟩)
  · exact .inr (.inr (.inl ⟨off - frameOutBase, by omega, by omega, rfl⟩))
  · exact .inr (.inr (.inr (.inl ⟨off - inBufBase, by omega, by omega, rfl⟩)))
  · exact .inr (.inr (.inr (.inr (.inl ⟨off - wordsOutBase, by omega, by omega, rfl⟩))))
  · exact .inr (.inr (.inr (.inr (.inr ⟨by omega, rfl⟩))))

/-- No named register is a buffer byte. -/
theorem namedRegs_ne_inBuf (off k : Nat) (h : off < 0x00E) :
    namedRegs.getD off .reserved ≠ .inBuf k := by
  interval_cases off <;> simp [namedRegs]

/-- An IN_BUF byte's index stays inside the buffer (R73). -/
theorem regAt_inBuf_lt (p : Params) (off k : Nat) (h : regAt p off = .inBuf k) :
    off = inBufBase + k ∧ k < p.frameMax := by
  rcases regAt_cases p off with ⟨ho, hr⟩ | ⟨j, _, hr⟩ | ⟨j, _, _, hr⟩ | ⟨j, hj, he, hr⟩ |
    ⟨j, _, _, hr⟩ | ⟨_, hr⟩ <;> rw [hr] at h
  · exact absurd h (namedRegs_ne_inBuf off k ho)
  · cases h
  · cases h
  · injection h with h
    subst h
    exact ⟨he, hj⟩
  · cases h
  · cases h

/-- Storing a byte keeps the canonical form (spec/20_memory.md R55). -/
theorem memStore_wf (p : Params) (s : State) (off : Nat) (v : Byte) (hp : p.frameMax ≤ 256)
    (h : Memory.wf s.mem) : Memory.wf (s.memStore p off v).mem := by
  simp only [State.memStore]
  cases hr : regAt p off with
  | inBuf k =>
    have hk := (regAt_inBuf_lt p off k hr).2
    refine Memory.wf_insert _ _ _ h ?_
    simp only [isBufferOffset, Bool.or_eq_true, Bool.and_eq_true, decide_eq_true_eq]
    omega
  | _ => exact h

/-- A store to CMD or an operand does not touch the result registers (R55). -/
theorem memStore_results (p : Params) (s : State) (off : Nat) (v : Byte) :
    (s.memStore p off v).status = s.status ∧ (s.memStore p off v).crcOutHi = s.crcOutHi ∧
    (s.memStore p off v).crcOutLo = s.crcOutLo ∧ (s.memStore p off v).outLen = s.outLen ∧
    (s.memStore p off v).wordsLen = s.wordsLen ∧ (s.memStore p off v).draws = s.draws ∧
    (s.memStore p off v).readData = s.readData ∧ (s.memStore p off v).pending = s.pending := by
  simp only [State.memStore]
  cases regAt p off <;> exact ⟨rfl, rfl, rfl, rfl, rfl, rfl, rfl, rfl⟩

/-- A store touches no buffer byte outside IN_BUF (R55: FRAME_OUT and WORDS_OUT are read-only). -/
theorem memStore_lookup_outside (p : Params) (s : State) (off off' : Nat) (v : Byte)
    (hp : p.frameMax ≤ 256) (h : off' < inBufBase ∨ inBufBase + 256 ≤ off') :
    Memory.lookup (s.memStore p off v).mem off' = Memory.lookup s.mem off' := by
  simp only [State.memStore]
  cases hr : regAt p off with
  | inBuf k =>
    have hk := (regAt_inBuf_lt p off k hr).2
    exact Memory.lookup_insert_other _ _ _ _ (by omega)
  | _ => rfl

/-- What a frame statement needs: each named register and each buffer byte that is not among the
written offsets is the same. -/
theorem keepsAllBut_of (w : Nat → Prop) (s t : State)
    (cmd : w 0x000 ∨ t.cmd = s.cmd) (status : w 0x001 ∨ t.status = s.status)
    (addr : w 0x002 ∨ t.addr = s.addr) (fc : w 0x003 ∨ t.fc = s.fc)
    (startHi : w 0x004 ∨ t.startHi = s.startHi) (startLo : w 0x005 ∨ t.startLo = s.startLo)
    (cntHi : w 0x006 ∨ t.cntHi = s.cntHi) (cntLo : w 0x007 ∨ t.cntLo = s.cntLo)
    (inLenHi : w 0x008 ∨ t.inLenHi = s.inLenHi) (inLenLo : w 0x009 ∨ t.inLenLo = s.inLenLo)
    (crcOutHi : w 0x00A ∨ t.crcOutHi = s.crcOutHi) (crcOutLo : w 0x00B ∨ t.crcOutLo = s.crcOutLo)
    (outLen : w 0x00C ∨ t.outLen = s.outLen) (wordsLen : w 0x00D ∨ t.wordsLen = s.wordsLen)
    (sentReq : t.sentReq = s.sentReq)
    (mem : ∀ off, isBufferOffset off = true → ¬ w off →
      Memory.lookup t.mem off = Memory.lookup s.mem off)
    (draws : t.draws = s.draws) (readData : t.readData = s.readData)
    (pending : t.pending = s.pending) : keepsAllBut w s t := by
  refine ⟨fun off hw => ?_, draws, readData, pending⟩
  have hbuf : isBufferOffset off = true → t.bufByte off = s.bufByte off := fun hb =>
    State.bufByte_congr s t off (mem off hb hw) draws
  simp only [isBufferOffset, Bool.or_eq_true, Bool.and_eq_true, decide_eq_true_eq] at hbuf
  unfold State.memRead
  rcases regAt_cases Params.block off with ⟨ho, hr⟩ | ⟨k, _, hr⟩ | ⟨k, hk, he, hr⟩ |
    ⟨k, hk, he, hr⟩ | ⟨k, hk, he, hr⟩ | ⟨_, hr⟩ <;> rw [hr]
  · interval_cases off <;> simp_all [namedRegs, State.readReg]
  · simp [State.readReg, sentReq]
  · subst he
    exact hbuf (by omega)
  · subst he
    have hk' : k < 256 := hk
    exact hbuf (by omega)
  · subst he
    exact hbuf (by omega)
  · rfl

@[simp] theorem frameMax_block : Params.block.frameMax = 256 := rfl

/-- A frame holds for any larger set of written offsets. -/
theorem keepsAllBut_mono (w w' : Nat → Prop) (s t : State) (h : keepsAllBut w s t)
    (hw : ∀ off, w off → w' off) : keepsAllBut w' s t :=
  ⟨fun off ho => h.1 off fun hh => ho (hw off hh), h.2⟩

/-! ### What each shared operation leaves unchanged -/

theorem finish_frame (s : State) (code : StatusCode) : keepsAllBut atStatus s (s.finish code) := by
  apply keepsAllBut_of <;> first | exact .inr rfl | exact .inl rfl | rfl | (intros; rfl)

theorem setCrcOut_finish_frame (s : State) (c : Word) (code : StatusCode) :
    keepsAllBut (fun off => atStatus off ∨ atCrcOut off) s ((s.setCrcOut c).finish code) := by
  apply keepsAllBut_of <;>
    first | exact .inr rfl | (exact .inl (by simp [atStatus, atCrcOut])) | rfl | (intros; rfl)

theorem failBuild_frame (s : State) :
    keepsAllBut (fun off => atStatus off ∨ atOutLen off) s s.failBuild := by
  apply keepsAllBut_of <;>
    first | exact .inr rfl | (exact .inl (by simp [atStatus, atOutLen])) | rfl | (intros; rfl)

theorem failRead_frame (s : State) (code : StatusCode) :
    keepsAllBut (fun off => atStatus off ∨ atWordsLen off) s (s.failRead code) := by
  apply keepsAllBut_of <;>
    first | exact .inr rfl | (exact .inl (by simp [atStatus, atWordsLen])) | rfl | (intros; rfl)

theorem succeedBuild_frame (s : State) (frame : List Byte) (h : frame.length = 8) :
    keepsAllBut (fun off => atStatus off ∨ atCrcOut off ∨ atOutLen off ∨ atFrameOut off) s
      (s.succeedBuild frame) := by
  apply keepsAllBut_of <;>
    first | exact .inr rfl | (exact .inl (by simp [atStatus, atCrcOut, atOutLen])) | rfl | skip
  intro off _ ho
  have e := frameOutBase_eq
  simp only [atStatus, atCrcOut, atOutLen, atFrameOut] at ho
  exact Memory.lookup_writeBytes_outside _ _ _ _ (by omega)

theorem succeedRead_frame (s : State) (words : List Word) :
    keepsAllBut (fun off => atStatus off ∨ atWordsLen off ∨ atWordsOut words.length off) s
      (s.succeedRead words) := by
  apply keepsAllBut_of <;>
    first | exact .inr rfl | (exact .inl (by simp [atStatus, atWordsLen])) | rfl | skip
  intro off _ ho
  have e := wordsOutBase_eq
  simp only [atStatus, atWordsLen, atWordsOut] at ho
  exact Memory.lookup_writeBytes_outside _ _ _ _ (by rw [wordBytes_length]; omega)

theorem placeInput_frame (s : State) (bytes : List Byte) :
    keepsAllBut (fun off => atInLen off ∨ atInBuf bytes.length off) s (s.placeInput bytes) := by
  apply keepsAllBut_of <;>
    first | exact .inr rfl | (exact .inl (by simp [atInLen])) | rfl | skip
  intro off _ ho
  have e := inBufBase_eq
  simp only [atInLen, atInBuf] at ho
  exact Memory.lookup_writeBytes_outside _ _ _ _ (by rw [List.length_take]; omega)

/-- A byte store leaves every other offset as it was (spec/20_memory.md R55). -/
theorem memStore_frame (s : State) (off : Nat) (v : Byte) :
    keepsAllBut (fun o => o = off) s (s.memStore Params.block off v) := by
  have e := inBufBase_eq
  rcases regAt_cases Params.block off with ⟨ho, hr⟩ | ⟨j, he, hr⟩ | ⟨j, _, _, hr⟩ |
    ⟨j, hj, he, hr⟩ | ⟨j, _, _, hr⟩ | ⟨_, hr⟩
  · interval_cases off <;>
      (apply keepsAllBut_of <;>
        first | exact .inr rfl | exact .inl rfl | rfl | (intros; rfl))
  · subst he
    rw [State.memStore, hr]
    refine ⟨fun o ho => ?_, rfl, rfl, rfl⟩
    simp only [State.memRead]
    rcases regAt_cases Params.block o with ⟨ho', hr'⟩ | ⟨j', he', hr'⟩ | ⟨j', _, _, hr'⟩ |
      ⟨j', _, _, hr'⟩ | ⟨j', _, _, hr'⟩ | ⟨_, hr'⟩ <;> rw [hr']
    · interval_cases o <;> rfl
    · have hne : j.val ≠ j'.val := by omega
      simp [State.readReg, State.writeReg, hne]
    all_goals rfl
  · rw [State.memStore, hr]
    exact ⟨fun _ _ => rfl, rfl, rfl, rfl⟩
  · rw [State.memStore, hr]
    apply keepsAllBut_of <;> first | exact .inr rfl | rfl | skip
    intro o _ ho
    exact Memory.lookup_insert_other _ _ _ _ (by omega)
  · rw [State.memStore, hr]
    exact ⟨fun _ _ => rfl, rfl, rfl, rfl⟩
  · rw [State.memStore, hr]
    exact ⟨fun _ _ => rfl, rfl, rfl, rfl⟩

/-- A byte store at a writable offset is read back there (R55). -/
theorem memRead_memStore_self (p : Params) (s : State) (off : Nat) (v : Byte)
    (h : off = 0x000 ∨ (0x002 ≤ off ∧ off ≤ 0x009) ∨ (0x010 ≤ off ∧ off ≤ 0x015) ∨
      (0x100 ≤ off ∧ off < 0x100 + p.frameMax)) (hp : p.frameMax ≤ 256) :
    (s.memStore p off v).memRead p off = v := by
  have e1 := frameOutBase_eq
  have e2 := inBufBase_eq
  have e3 := wordsOutBase_eq
  rw [State.memStore, State.memRead]
  rcases regAt_cases p off with ⟨ho, hr⟩ | ⟨j, he, hr⟩ | ⟨j, _, _, hr⟩ | ⟨j, hj, he, hr⟩ |
    ⟨j, _, _, hr⟩ | ⟨hx, hr⟩
  · rw [hr]
    interval_cases off <;> first | rfl | omega
  · rw [hr]
    simp [State.readReg, State.writeReg]
  · omega
  · rw [hr]
    simp [State.readReg, State.writeReg, State.bufByte]
  · omega
  · exfalso
    rcases h with h | h | h | h
    · omega
    · omega
    · have := regAt_sentReq p (off - 16) (by omega)
      rw [show 16 + (off - 16) = off by omega, hr] at this
      cases this
    · have := regAt_inBuf p (off - inBufBase) (by omega)
      rw [show inBufBase + (off - inBufBase) = off by omega, hr] at this
      cases this

/-- A byte store at a read-only or reserved offset is ignored (R55, R57). -/
theorem memStore_ignored (p : Params) (s : State) (off : Nat) (v : Byte)
    (h : off = 0x001 ∨ (0x00A ≤ off ∧ off ≤ 0x00F) ∨ (0x016 ≤ off ∧ off ≤ 0x0FF) ∨
      0x100 + p.frameMax ≤ off) : s.memStore p off v = s := by
  have e1 := frameOutBase_eq
  have e2 := inBufBase_eq
  rw [State.memStore]
  rcases regAt_cases p off with ⟨ho, hr⟩ | ⟨j, he, hr⟩ | ⟨j, _, _, hr⟩ | ⟨j, hj, he, hr⟩ |
    ⟨j, _, _, hr⟩ | ⟨_, hr⟩ <;> rw [hr]
  · interval_cases off <;> first | rfl | omega
  · omega
  · rfl
  · omega
  · rfl
  · rfl

/-- A reserved offset reads 0x00 (R57). -/
theorem memRead_reserved (p : Params) (s : State) (off : Nat)
    (h : off = 0x00E ∨ off = 0x00F ∨ off = 0x016 ∨ off = 0x017 ∨ (0x020 ≤ off ∧ off ≤ 0x0FF) ∨
      (0x100 + p.frameMax ≤ off ∧ off ≤ 0x1FF) ∨ 0x300 ≤ off) (hp : p.frameMax ≤ 256) :
    s.memRead p off = 0x00 := by
  have e1 := frameOutBase_eq
  have e2 := inBufBase_eq
  have e3 := wordsOutBase_eq
  rw [State.memRead]
  rcases regAt_cases p off with ⟨ho, hr⟩ | ⟨j, he, hr⟩ | ⟨j, _, _, hr⟩ | ⟨j, hj, he, hr⟩ |
    ⟨j, _, _, hr⟩ | ⟨hx, hr⟩ <;> rw [hr]
  all_goals first | rfl | omega

/-! ### Buffers as sequences -/

@[simp] theorem bufBytes_length (s : State) (off n : Nat) : (s.bufBytes off n).length = n := by
  induction n generalizing off with
  | zero => rfl
  | succ n ih => simp [State.bufBytes, ih]

@[simp] theorem input_length (s : State) (n : Nat) : (s.input n).length = n :=
  bufBytes_length s inBufBase n

theorem byteAt_bufBytes (s : State) (off n i : Nat) (h : i < n) :
    byteAt (s.bufBytes off n) i = s.bufByte (off + i) := by
  induction n generalizing off i with
  | zero => omega
  | succ n ih =>
    cases i with
    | zero => rfl
    | succ i =>
      rw [State.bufBytes, byteAt_cons_succ, ih (off + 1) i (by omega)]
      congr 1
      omega

theorem byteAt_input (s : State) (n i : Nat) (h : i < n) :
    byteAt (s.input n) i = s.bufByte (0x100 + i) := byteAt_bufBytes _ _ _ _ h

/-- The first bytes of IN(n) are IN of a smaller number (spec/00_scope.md R12). -/
theorem input_take (s : State) (n m : Nat) (h : m ≤ n) : (s.input n).take m = s.input m := by
  apply ext_byteAt
  · simp
    omega
  · intro i hi
    simp only [List.length_take, input_length] at hi
    have : byteAt ((s.input n).take m) i = byteAt (s.input n) i := by
      simp [byteAt, show i < m by omega]
    rw [this, byteAt_input _ _ _ (by omega), byteAt_input _ _ _ (by omega)]

/-- SENT_REQ, byte by byte. -/
theorem sentBytes_eq (s : State) :
    s.sentBytes = [s.sentReq[0], s.sentReq[1], s.sentReq[2], s.sentReq[3], s.sentReq[4],
      s.sentReq[5]] := by
  rw [State.sentBytes]
  generalize s.sentReq = q
  obtain ⟨⟨l⟩, hl⟩ := q
  simp only [List.size_toArray] at hl
  match l, hl with
  | [_, _, _, _, _, _], _ => rfl

/-- Two states whose buffer bytes agree in a range have the same sequence there. -/
theorem bufBytes_congr (s t : State) (off n : Nat)
    (h : ∀ i < n, t.bufByte (off + i) = s.bufByte (off + i)) :
    t.bufBytes off n = s.bufBytes off n := by
  induction n generalizing off with
  | zero => rfl
  | succ n ih =>
    have h0 : t.bufByte off = s.bufByte off := h 0 (by omega)
    rw [State.bufBytes, State.bufBytes, h0, ih (off + 1) fun i hi => ?_]
    have := h (i + 1) (by omega)
    rwa [show off + (i + 1) = off + 1 + i by omega] at this

/-- Bytes written at an offset are read back as the same sequence. -/
theorem bufBytes_writeBytes (s : State) (m : Memory) (off : Nat) (bs : List Byte)
    (h : s.mem = Memory.writeBytes m off bs) : s.bufBytes off bs.length = bs := by
  apply ext_byteAt _ _ (by simp)
  intro i hi
  rw [bufBytes_length] at hi
  rw [byteAt_bufBytes _ _ _ _ hi]
  rw [State.bufByte_of_lookup s (off + i) bs[i]
    (by rw [h]; exact Memory.lookup_writeBytes_inside m off i bs hi)]
  exact (List.getD_eq_getElem _ _ hi).symm

/-- A successful build leaves its frame in FRAME_OUT (spec/41_frame_build.md R122). -/
theorem succeedBuild_frameOut (s : State) (frame : List Byte) (h : frame.length = 8) :
    (s.succeedBuild frame).frameOut = frame := by
  have := bufBytes_writeBytes (s.succeedBuild frame) s.mem frameOutBase frame rfl
  rwa [h] at this

/-- Placed input is read back (spec/30_encoding.md R84). -/
theorem placeInput_input (s : State) (bytes : List Byte) (h : bytes.length ≤ 256) :
    (s.placeInput bytes).input bytes.length = bytes := by
  have ht : bytes.take 256 = bytes := List.take_of_length_le h
  exact bufBytes_writeBytes _ s.mem inBufBase bytes (by simp [ht])

/-- IN(n) is a function of the memory and the draw alone (spec/00_scope.md R12). -/
theorem input_congr (s t : State) (n : Nat) (hm : t.mem = s.mem) (hd : t.draws = s.draws) :
    t.input n = s.input n :=
  bufBytes_congr s t _ _ fun _ _ => State.bufByte_congr s t _ (by rw [hm]) hd

/-- Placed input is read back in any state with the same memory. -/
theorem input_of_placed (s t : State) (bytes : List Byte) (h : bytes.length ≤ 256)
    (hm : t.mem = (s.placeInput bytes).mem) : t.input bytes.length = bytes :=
  bufBytes_writeBytes t s.mem inBufBase bytes
    (by rw [hm]; simp [List.take_of_length_le h])

/-- Two frames compose. -/
theorem keepsAllBut_trans (w w' : Nat → Prop) (s t u : State) (h : keepsAllBut w s t)
    (h' : keepsAllBut w' t u) : keepsAllBut (fun off => w off ∨ w' off) s u :=
  ⟨fun off ho => (h'.1 off fun hh => ho (.inr hh)).trans (h.1 off fun hh => ho (.inl hh)),
    h'.2.1.trans h.2.1, h'.2.2.1.trans h.2.2.1, h'.2.2.2.trans h.2.2.2⟩

@[simp] theorem placeInput_inLen (s : State) (bytes : List Byte) :
    (s.placeInput bytes).inLen = BitVec.ofNat 16 bytes.length := by
  simp [State.inLen]

/-- The words a successful PARSE_READ leaves in WORDS_OUT (spec/42_frame_parse.md R146). -/
theorem succeedRead_wordOut (s : State) (ws : List Word) (i : Nat) (h : i < ws.length) :
    (s.succeedRead ws).wordOut i = ws[i] := by
  have hl : (wordBytes ws).length = 2 * ws.length := wordBytes_length ws
  have hh := Memory.lookup_writeBytes_inside s.mem wordsOutBase (2 * i) (wordBytes ws) (by omega)
  have hlo := Memory.lookup_writeBytes_inside s.mem wordsOutBase (2 * i + 1) (wordBytes ws)
    (by omega)
  have e1 := wordBytes_hi ws i h
  have e2 := wordBytes_lo ws i h
  rw [byteAt, List.getD_eq_getElem _ _ (by omega)] at e1 e2
  rw [State.wordOut, State.bufByte_of_lookup _ _ _ (by simpa using hh),
    Nat.add_assoc, State.bufByte_of_lookup _ _ _ (by simpa using hlo), e1, e2, u16_hi8_lo8]

@[simp] theorem responseWords_length (r : List Byte) (i n : Nat) :
    (responseWords r i n).length = n := by
  induction n generalizing i with
  | zero => rfl
  | succ n ih => simp [responseWords, ih]

/-- Word i of a response is u16(r[3+2i], r[4+2i]) (spec/42_frame_parse.md R146). -/
theorem responseWords_get (r : List Byte) (j n i : Nat) (h : i < (responseWords r j n).length) :
    (responseWords r j n)[i] = u16 (byteAt r (3 + 2 * (j + i))) (byteAt r (4 + 2 * (j + i))) := by
  induction n generalizing j i with
  | zero => simp [responseWords] at h
  | succ n ih =>
    cases i with
    | zero => rfl
    | succ i =>
      have := ih (j + 1) i (by simpa [responseWords] using h)
      simpa [responseWords, show j + 1 + i = j + (i + 1) by omega] using this

/-! ### What each command can do -/

/-- CRC16: one of the two ends of spec/40_checksum.md R105. -/
theorem crc16Command_cases (p : Params) (s : State) :
    (p.frameMax < s.inLen.toNat ∧ crc16Command p s = s.finish .illegalCommand) ∨
    (s.inLen.toNat ≤ p.frameMax ∧
      crc16Command p s = (s.setCrcOut (crc16 (s.input s.inLen.toNat))).finish .ok) := by
  unfold crc16Command
  split
  · exact .inl ⟨by assumption, rfl⟩
  · exact .inr ⟨by omega, rfl⟩

/-- BUILD_READ: one of the two ends of spec/41_frame_build.md R120. -/
theorem buildReadCommand_cases (p : Params) (s : State) :
    (readArgsOk p s.addr s.fc s.cnt = true ∧
      buildReadCommand p s = s.succeedBuild (requestFrame s.addr s.fc s.start s.cnt)) ∨
    (readArgsOk p s.addr s.fc s.cnt = false ∧ buildReadCommand p s = s.failBuild) := by
  unfold buildReadCommand
  cases h : readArgsOk p s.addr s.fc s.cnt
  · exact .inr ⟨rfl, rfl⟩
  · exact .inl ⟨rfl, rfl⟩

/-- BUILD_WRITE_SINGLE: one of the two ends of spec/41_frame_build.md R126. -/
theorem buildWriteSingleCommand_cases (p : Params) (s : State) :
    (writeArgsOk p s.addr s.cnt = true ∧
      buildWriteSingleCommand p s = s.succeedBuild (requestFrame s.addr 0x06 s.start s.cnt)) ∨
    (writeArgsOk p s.addr s.cnt = false ∧ buildWriteSingleCommand p s = s.failBuild) := by
  unfold buildWriteSingleCommand
  cases h : writeArgsOk p s.addr s.cnt
  · exact .inr ⟨rfl, rfl⟩
  · exact .inl ⟨rfl, rfl⟩

/-- PARSE_READ: one of the three ends of spec/42_frame_parse.md R140. -/
theorem parseReadCommand_cases (p : Params) (s : State) :
    (p.frameMax < s.inLen.toNat ∧ parseReadCommand p s = s.failRead .illegalCommand) ∨
    (s.inLen.toNat ≤ p.frameMax ∧
      checkRead p (s.input s.inLen.toNat) s.addr s.fc s.cnt.toNat ≠ .ok ∧
      parseReadCommand p s =
        s.failRead (checkRead p (s.input s.inLen.toNat) s.addr s.fc s.cnt.toNat)) ∨
    (s.inLen.toNat ≤ p.frameMax ∧
      checkRead p (s.input s.inLen.toNat) s.addr s.fc s.cnt.toNat = .ok ∧
      parseReadCommand p s =
        s.succeedRead (responseWords (s.input s.inLen.toNat) 0 s.cnt.toNat)) := by
  unfold parseReadCommand
  split
  · exact .inl ⟨by assumption, rfl⟩
  · split
    · exact .inr (.inr ⟨by omega, by assumption, rfl⟩)
    · exact .inr (.inl ⟨by omega, by assumption, rfl⟩)

/-- PARSE_WRITE_SINGLE: one of the two ends of spec/42_frame_parse.md R150. -/
theorem parseWriteSingleCommand_cases (p : Params) (s : State) :
    (p.frameMax < s.inLen.toNat ∧ parseWriteSingleCommand p s = s.finish .illegalCommand) ∨
    (s.inLen.toNat ≤ p.frameMax ∧
      parseWriteSingleCommand p s =
        s.finish (checkWriteSingle p (s.input s.inLen.toNat) s.sentBytes)) := by
  unfold parseWriteSingleCommand
  split
  · exact .inl ⟨by assumption, rfl⟩
  · exact .inr ⟨by omega, rfl⟩

theorem mismatchStatus_ne_ok (c : MismatchCode) : mismatchStatus c ≠ .ok := by
  cases c <;> decide

/-- The status byte of a parameter's code (spec/00_scope.md R7, spec/60_exceptions.md R171). -/
@[simp] theorem statusByte_mismatchStatus (c : MismatchCode) :
    statusByte (mismatchStatus c) = mismatchByte c := by
  cases c <;> decide

/-- Only Ok has the status byte 0x80 (R171). -/
theorem statusByte_eq_ok (code : StatusCode) : statusByte code = 0x80 ↔ code = .ok := by
  cases code <;> decide

/-- PARSE_READ's checks pass exactly on a response of the right length, checksum, address, function
and byte count (spec/42_frame_parse.md R141 to R145). -/
theorem checkRead_ok_iff (p : Params) (r : List Byte) (ea ef : Byte) (n : Nat) :
    checkRead p r ea ef n = .ok ↔
      r.length = 5 + 2 * n ∧
      crc16 (r.take (r.length - 2)) = u16 (byteAt r (r.length - 1)) (byteAt r (r.length - 2)) ∧
      byteAt r 0 = ea ∧ byteAt r 1 = ef ∧ (byteAt r 2).toNat = 2 * n := by
  have := mismatchStatus_ne_ok p.lengthErrorCode
  unfold checkRead
  split_ifs <;> simp_all

/-- PARSE_WRITE_SINGLE's checks pass exactly on an echo with a valid checksum (R151 to R155). -/
theorem checkWriteSingle_ok_iff (p : Params) (r q : List Byte) :
    checkWriteSingle p r q = .ok ↔
      r.length = 8 ∧ crc16 (r.take 6) = u16 (byteAt r 7) (byteAt r 6) ∧
      byteAt r 0 = byteAt q 0 ∧ byteAt r 1 = byteAt q 1 ∧
      (r.take 6).drop 2 = (q.take 6).drop 2 := by
  have := mismatchStatus_ne_ok p.lengthErrorCode
  have := mismatchStatus_ne_ok p.echoErrorCode
  unfold checkWriteSingle
  split_ifs <;> simp_all

/-- PARSE_READ's checks on a frame given by its fields (R77, spec/42_frame_parse.md R147). -/
theorem checkRead_of_fields (a f bc : Byte) (ws : List Word) (c : Word) (ea ef : Byte) (n : Nat) :
    statusByte (checkRead Params.block (a :: f :: bc :: (wordBytes ws ++ trailer c)) ea ef n) =
        (if ws.length ≠ n then 0x85
         else if c ≠ crc16 (a :: f :: bc :: wordBytes ws) then 0x82
         else if a ≠ ea then 0x83
         else if f ≠ ef then 0x84
         else if bc.toNat ≠ 2 * ws.length then 0x85
         else 0x80) := by
  have hbl : (a :: f :: bc :: (wordBytes ws ++ trailer c)).length = 5 + 2 * ws.length := by
    simp
    omega
  by_cases h : ws.length = n
  · subst h
    have ht : (a :: f :: bc :: (wordBytes ws ++ trailer c)).take (5 + 2 * ws.length - 2) =
        a :: f :: bc :: wordBytes ws :=
      List.take_left' (l₁ := a :: f :: bc :: wordBytes ws) (by simp; omega)
    have hx1 : byteAt (a :: f :: bc :: (wordBytes ws ++ trailer c)) (5 + 2 * ws.length - 1) =
        hi8 c := by
      rw [show 5 + 2 * ws.length - 1 = 2 * ws.length + 1 + 1 + 1 + 1 by omega]
      simp only [byteAt_cons_succ]
      rw [byteAt_append_right _ _ _ (by simp)]
      simp [trailer, byteAt]
    have hx2 : byteAt (a :: f :: bc :: (wordBytes ws ++ trailer c)) (5 + 2 * ws.length - 2) =
        lo8 c := by
      rw [show 5 + 2 * ws.length - 2 = 2 * ws.length + 1 + 1 + 1 by omega]
      simp only [byteAt_cons_succ]
      rw [byteAt_append_right _ _ _ (by simp)]
      simp [trailer, byteAt]
    unfold checkRead
    rw [hbl, ht, hx1, hx2, u16_hi8_lo8]
    simp only [byteAt_cons_zero, byteAt_cons_succ, ne_comm (a := c), ne_eq, not_true, if_false]
    split_ifs <;> rfl
  · unfold checkRead
    rw [hbl, if_pos (by omega), if_pos h]
    rfl

/-- The words of a frame given by its fields are those words (R77, R146). -/
theorem responseWords_of_fields (a f bc : Byte) (ws : List Word) (c : Word) :
    responseWords (a :: f :: bc :: (wordBytes ws ++ trailer c)) 0 ws.length = ws := by
  apply List.ext_getElem (by simp)
  intro i h1 h2
  rw [responseWords_get]
  have x1 : byteAt (a :: f :: bc :: (wordBytes ws ++ trailer c)) (3 + 2 * (0 + i)) =
      hi8 ws[i] := by
    rw [← wordBytes_hi ws i h2]
    simp only [show 3 + 2 * (0 + i) = 2 * i + 1 + 1 + 1 by omega, byteAt_cons_succ]
    exact byteAt_append_left _ _ _ (by simp; omega)
  have x2 : byteAt (a :: f :: bc :: (wordBytes ws ++ trailer c)) (4 + 2 * (0 + i)) =
      lo8 ws[i] := by
    rw [← wordBytes_lo ws i h2]
    simp only [show 4 + 2 * (0 + i) = 2 * i + 1 + 1 + 1 + 1 by omega, byteAt_cons_succ]
    exact byteAt_append_left _ _ _ (by simp; omega)
  rw [x1, x2, u16_hi8_lo8]

/-- The status byte of PARSE_READ's checks on the input in place, for any parameters, in the terms
of the buffer bytes (spec/42_frame_parse.md R141 to R147). -/
theorem checkRead_status (p : Params) (s : State) :
    statusByte (checkRead p (s.input s.inLen.toNat) s.addr s.fc s.cnt.toNat) =
      (if s.inLen.toNat ≠ 5 + 2 * s.cnt.toNat then mismatchByte p.lengthErrorCode
       else if crc16 (s.input (s.inLen.toNat - 2)) ≠
          u16 (s.bufByte (0x100 + (s.inLen.toNat - 1)))
            (s.bufByte (0x100 + (s.inLen.toNat - 2))) then 0x82
       else if s.bufByte 0x100 ≠ s.addr then 0x83
       else if s.bufByte 0x101 ≠ s.fc then 0x84
       else if (s.bufByte 0x102).toNat ≠ 2 * s.cnt.toNat then 0x85
       else 0x80) := by
  unfold checkRead
  simp only [input_length]
  by_cases h : s.inLen.toNat ≠ 5 + 2 * s.cnt.toNat
  · rw [if_pos h, if_pos h, statusByte_mismatchStatus]
  · rw [if_neg h, if_neg h, input_take _ _ _ (by omega), byteAt_input _ _ _ (by omega),
      byteAt_input _ _ _ (by omega), byteAt_input _ _ _ (by omega), byteAt_input _ _ _ (by omega),
      byteAt_input _ _ _ (by omega)]
    split_ifs <;> rfl

/-- The status byte of PARSE_WRITE_SINGLE's checks on the input in place, for any parameters, in the
terms of the buffer bytes (spec/42_frame_parse.md R151 to R156). -/
theorem checkWriteSingle_status (p : Params) (s : State) :
    statusByte (checkWriteSingle p (s.input s.inLen.toNat) s.sentBytes) =
      (if s.inLen ≠ 8 then mismatchByte p.lengthErrorCode
       else if crc16 (s.input 6) ≠ u16 (s.bufByte 0x107) (s.bufByte 0x106) then 0x82
       else if s.bufByte 0x100 ≠ s.sentReq[0] then 0x83
       else if s.bufByte 0x101 ≠ s.sentReq[1] then 0x84
       else if s.bufByte 0x102 ≠ s.sentReq[2] ∨ s.bufByte 0x103 ≠ s.sentReq[3] ∨
          s.bufByte 0x104 ≠ s.sentReq[4] ∨ s.bufByte 0x105 ≠ s.sentReq[5] then
        mismatchByte p.echoErrorCode
       else 0x80) := by
  have hlen : s.inLen.toNat ≠ 8 ↔ s.inLen ≠ 8 :=
    not_congr ⟨fun h => BitVec.eq_of_toNat_eq h, fun h => by rw [h]; rfl⟩
  simp only [checkWriteSingle, input_length, hlen]
  by_cases h8 : s.inLen = 8
  · have h6 : s.input 6 = [s.bufByte 0x100, s.bufByte 0x101, s.bufByte 0x102, s.bufByte 0x103,
        s.bufByte 0x104, s.bufByte 0x105] := rfl
    rw [h8, show (8 : Word).toNat = 8 from rfl, input_take s 8 6 (by omega),
      byteAt_input _ _ _ (by omega), byteAt_input _ _ _ (by omega), byteAt_input _ _ _ (by omega),
      byteAt_input _ _ _ (by omega), h6]
    simp only [sentBytes_eq, List.take, List.drop, byteAt, List.getD_cons_zero,
      List.getD_cons_succ, ne_eq, List.cons.injEq, and_true, not_and_or, not_true_eq_false,
      if_false]
    split_ifs <;> first | rfl | exact statusByte_mismatchStatus _
  · rw [if_pos h8, if_pos h8, statusByte_mismatchStatus]

end Sys2Proof.Machine
end

