-- ==== Sys2Proof/Laws/PerInstr.lean ====
section
/-! SUPPORT. Facts about every instruction as syntax, one lemma per constructor. -/

namespace Sys2Proof.Laws.EncodedLength

open Sys2Proof Sys2Proof.Machine

/-- How many bytes an instruction has: one for a command word (spec/30_encoding.md R70), eight for a
request or a write-single response (R75, R76, R78), 5 + 2·N for a read response (R77). -/
def bytesOf : Instr → Nat
  | .crc16 => 1
  | .buildRead => 1
  | .buildWriteSingle => 1
  | .parseRead => 1
  | .parseWriteSingle => 1
  | .reservedCmd _ => 1
  | .readReqFc03 _ _ _ => 8
  | .readReqFc04 _ _ _ => 8
  | .writeSingleReq _ _ _ => 8
  | .readResp _ _ _ words _ => 5 + 2 * words.length
  | .writeSingleResp _ _ _ _ _ => 8

/-- A well-formed instruction's encoding has its format's length, and fits IN_BUF. -/
def Statement (i : Instr) : Prop :=
  i.wf = true → (encode i).2.length = bytesOf i ∧ (encode i).2.length ≤ Params.block.frameMax

theorem crc16 : Statement .crc16 := fun _ => by decide
theorem buildRead : Statement .buildRead := fun _ => by decide
theorem buildWriteSingle : Statement .buildWriteSingle := fun _ => by decide
theorem parseRead : Statement .parseRead := fun _ => by decide
theorem parseWriteSingle : Statement .parseWriteSingle := fun _ => by decide
theorem reservedCmd (word : Byte) : Statement (.reservedCmd word) :=
  fun _ => ⟨rfl, by simp [encode, Params.block]⟩
theorem readReqFc03 (addr : Byte) (start count : Word) :
    Statement (.readReqFc03 addr start count) :=
  fun _ => ⟨rfl, by simp [encode, Params.block]⟩
theorem readReqFc04 (addr : Byte) (start count : Word) :
    Statement (.readReqFc04 addr start count) :=
  fun _ => ⟨rfl, by simp [encode, Params.block]⟩
theorem writeSingleReq (addr : Byte) (start value : Word) :
    Statement (.writeSingleReq addr start value) :=
  fun _ => ⟨rfl, by simp [encode, Params.block]⟩
theorem readResp (addr fc byteCount : Byte) (words : List Word) (crc : Word) :
    Statement (.readResp addr fc byteCount words crc) := by
  intro h
  have h : words.length ≤ 125 := of_decide_eq_true h
  simp only [encode, readRespBytes, bytesOf, Params.block, List.length_cons, List.length_append,
    wordBytes_length, trailer_length]
  omega
theorem writeSingleResp (addr fc : Byte) (reg value crc : Word) :
    Statement (.writeSingleResp addr fc reg value crc) :=
  fun _ => ⟨rfl, by simp [encode, writeSingleRespBytes, Params.block]⟩

end Sys2Proof.Laws.EncodedLength
end

