-- ==== Sys2Proof/Laws/Step.lean ====
section
/-! SUPPORT. Laws of a step and of runs of byte writes. -/

namespace Sys2Proof.Machine

theorem step_cons (s : State) (a : HostAction) (rest : List HostAction)
    (h : s.pending = a :: rest) : step s = perform a { s with pending := rest } := by
  simp [step, h]

/-- A run goes on from the state its first step answers. -/
theorem run_succ (k : Nat) (s t : State) (h : step s = .next t) :
    run (k + 1) s = run k t := by
  simp [run, h]

/-- `run` is the host's own run of the machine. -/
theorem run_eq_core_run (k : Nat) (s : State) : run k s = Sys2Proof.core.run k s := by
  induction k generalizing s with
  | zero => rfl
  | succ k ih =>
    have hs : Sys2Proof.core.step s = step s := rfl
    simp only [run, Host.Core.run, hs]
    cases step s with
    | next t => exact ih t
    | fault why => rfl
    | refused why => rfl

@[simp] theorem run_zero (s : State) : run 0 s = .next s := rfl

/-- Every instruction of the table answers a next state, whatever the state. -/
theorem exec_answers_next (i : Instr) (s : State) : ∃ t, exec i s = .next t := by
  cases i <;> exact ⟨_, rfl⟩

/-- A byte write at an offset other than CMD is its store (spec/20_memory.md R55). -/
theorem performWrite_store (off : Nat) (v : Byte) (s : State) (h0 : off ≠ 0x000)
    (hoff : off ≤ 0x3FF) : performWrite off [v] s = .next (s.memStore Params.block off v) := by
  have e : lastOffset = 0x3FF := rfl
  have e0 : cmdOffset = 0x000 := rfl
  simp only [performWrite]
  rw [if_neg (by omega), if_neg (by omega)]

/-- A byte write to CMD stores the byte and runs the command it encodes (spec/20_memory.md R56). -/
theorem performWrite_cmd (v : Byte) (s : State) :
    performWrite 0x000 [v] s = exec (decodeCommand v) { s with cmd := v } := rfl

/-- A write-back is the byte write of what the last read returned (spec/30_encoding.md R85; log 23). -/
theorem perform_writeBack (off : Nat) (s : State) :
    perform (.writeBack off) s = performWrite off [s.readData] s := rfl

/-- A byte write beyond the space is refused by its offset (spec/20_memory.md R51). -/
theorem performWrite_outside (off : Nat) (v : Byte) (s : State) (h : 0x3FF < off) :
    performWrite off [v] s = .refused (.offsetOutOfSpace off) :=
  if_pos (show lastOffset < off from h)

/-- What a byte write that is not refused does. -/
theorem performWrite_cases (off : Nat) (bytes : List Byte) (s t : State)
    (h : performWrite off bytes s = .next t) :
    ∃ v, bytes = [v] ∧ off ≤ 0x3FF ∧
      ((off = 0x000 ∧ exec (decodeCommand v) { s with cmd := v } = .next t) ∨
        (off ≠ 0x000 ∧ t = s.memStore Params.block off v)) := by
  match bytes, h with
  | [], h => cases h
  | _ :: _ :: _, h => cases h
  | [v], h =>
    by_cases hoff : off ≤ 0x3FF
    · refine ⟨v, rfl, hoff, ?_⟩
      by_cases h0 : off = 0x000
      · subst h0
        exact .inl ⟨rfl, h⟩
      · rw [performWrite_store _ _ _ h0 hoff] at h
        cases h
        exact .inr ⟨h0, rfl⟩
    · have hlt : lastOffset < off := Nat.lt_of_not_le hoff
      simp only [performWrite, if_pos hlt] at h
      cases h

/-- What a step that answers a next state does: a store, a command, a read, a request frame, a
response frame or a reset. -/
theorem step_next_cases (s t : State) (a : HostAction) (rest : List HostAction)
    (hp : s.pending = a :: rest) (h : step s = .next t) :
    (∃ off v, off ≠ 0x000 ∧ off ≤ 0x3FF ∧
      (a = .write off [v] ∨ (a = .writeBack off ∧ v = s.readData)) ∧
      t = ({ s with pending := rest }).memStore Params.block off v) ∨
    (∃ v, (a = .write 0x000 [v] ∨ (a = .writeBack 0x000 ∧ v = s.readData)) ∧
      exec (decodeCommand v) { s with pending := rest, cmd := v } = .next t) ∨
    (∃ off, a = .read off 1 ∧ off ≤ 0x3FF ∧
      t = { s with pending := rest, readData := s.memRead Params.block off }) ∨
    (∃ f i, a = .request f ∧ decodeRequest f = .ok i ∧
      exec i { s with pending := rest } = .next t) ∨
    (∃ f i, a = .response f ∧ decodeResponse f = .ok i ∧
      exec i { s with pending := rest } = .next t) ∨
    (a = .reset ∧ t = ({ s with pending := rest }).resetEvent) := by
  rw [step_cons s a rest hp] at h
  cases a with
  | write off bytes =>
    obtain ⟨v, rfl, hoff, ⟨rfl, he⟩ | ⟨h0, rfl⟩⟩ := performWrite_cases _ _ _ _ h
    · exact .inr (.inl ⟨v, .inl rfl, he⟩)
    · exact .inl ⟨off, v, h0, hoff, .inl rfl, rfl⟩
  | read off n =>
    simp only [perform, performRead] at h
    split_ifs at h with hn hoff
    · cases h
      rw [not_not] at hn
      subst hn
      exact .inr (.inr (.inl ⟨off, rfl, Nat.le_of_not_lt hoff, rfl⟩))
  | writeBack off =>
    simp only [perform] at h
    obtain ⟨v, hv, hoff, ⟨rfl, he⟩ | ⟨h0, rfl⟩⟩ := performWrite_cases _ _ _ _ h <;> cases hv
    · exact .inr (.inl ⟨_, .inr ⟨rfl, rfl⟩, he⟩)
    · exact .inl ⟨off, _, h0, hoff, .inr ⟨rfl, rfl⟩, rfl⟩
  | request f =>
    simp only [perform, runBytes, decode] at h
    split at h
    · exact .inr (.inr (.inr (.inl ⟨f, _, rfl, by assumption, h⟩)))
    · cases h
  | response f =>
    simp only [perform, runBytes, decode] at h
    split at h
    · exact .inr (.inr (.inr (.inr (.inl ⟨f, _, rfl, by assumption, h⟩))))
    · cases h
  | reset =>
    cases h
    exact .inr (.inr (.inr (.inr (.inr ⟨rfl, rfl⟩))))

/-- One step of a run whose next access is a byte write at an offset other than CMD. -/
theorem run_wr (k : Nat) (s : State) (off : Nat) (v : Byte) (rest : List HostAction)
    (h0 : off ≠ 0x000) (hoff : off ≤ 0x3FF) :
    run (k + 1) { s with pending := wr off v :: rest } =
      run k { s.memStore Params.block off v with pending := rest } := by
  apply run_succ
  rw [step_cons _ _ _ rfl]
  show performWrite off [v] { s with pending := rest } = _
  rw [performWrite_store _ _ _ h0 hoff]
  simp only [State.memStore]
  cases regAt Params.block off <;> rfl

/-- One step of a run whose next access is a byte read (spec/20_memory.md R54). -/
theorem run_rd (k : Nat) (s : State) (off : Nat) (rest : List HostAction) (h : off ≤ 0x3FF) :
    run (k + 1) { s with pending := .read off 1 :: rest } =
      run k { s with pending := rest, readData := s.memRead Params.block off } := by
  apply run_succ
  have hl : ¬ lastOffset < off := Nat.not_lt.mpr h
  rw [step_cons _ _ _ rfl, perform, performRead, if_neg (by simp), if_neg hl]
  rfl

/-- One line of COPY_SENT_REQ: a read, and the write of what it returned to a byte of SENT_REQ
(spec/30_encoding.md R85). -/
theorem run_copyByte (k : Nat) (s : State) (src : Nat) (j : Fin 6) (rest : List HostAction)
    (h : src ≤ 0x3FF)
    (hp : s.pending = .read src 1 :: .writeBack (0x010 + j.val) :: rest) :
    run (k + 2) s =
      run k
        { s with
          sentReq := s.sentReq.set j (s.memRead Params.block src)
          readData := s.memRead Params.block src
          pending := rest } := by
  have hr := run_rd (k + 1) s src (.writeBack (0x010 + j.val) :: rest) h
  rw [← hp] at hr
  refine hr.trans (run_succ _ _ _ ?_)
  rw [step_cons _ _ _ rfl]
  show performWrite (0x010 + j.val) [s.memRead Params.block src] _ = _
  rw [performWrite_store _ _ _ (by omega) (by omega), State.memStore,
    regAt_sentReq _ _ j.isLt]
  rfl

/-- A run whose next access is a byte write to CMD. -/
theorem run_wr_cmd (s : State) (v : Byte) (rest : List HostAction) :
    run 1 { s with pending := wr 0x000 v :: rest } =
      exec (decodeCommand v) { s with pending := rest, cmd := v } := by
  obtain ⟨t, ht⟩ := exec_answers_next (decodeCommand v) { s with pending := rest, cmd := v }
  rw [ht]
  exact run_succ 0 _ _ ht

/-- A run of byte writes into IN_BUF (spec/30_encoding.md R84). -/
theorem run_wrBytes_inBuf (k j : Nat) (s : State) (bytes : List Byte) (rest : List HostAction)
    (h : j + bytes.length ≤ 256) :
    run (bytes.length + k)
        { s with pending := wrBytes (0x100 + j) bytes ++ rest } =
      run k
        { s with mem := Memory.writeBytes s.mem (0x100 + j) bytes, pending := rest } := by
  induction bytes generalizing j s with
  | nil => simp [wrBytes, Memory.writeBytes]
  | cons b bs ih =>
    simp only [List.length_cons] at h
    have hr : regAt Params.block (0x100 + j) = .inBuf j :=
      regAt_inBuf Params.block j (show j < 256 by omega)
    rw [show (b :: bs).length + k = bs.length + k + 1 by simp; omega, wrBytes, List.cons_append,
      run_wr _ _ _ _ _ (by omega) (by omega), State.memStore, hr]
    exact ih (j + 1) _ (by omega)

/-- A run of the writes that place an input sequence ends in `placeInput` (spec/30_encoding.md R84). -/
theorem run_wrInput (k : Nat) (s : State) (bytes : List Byte) (rest : List HostAction)
    (h : bytes.length ≤ 256) :
    run (bytes.length + (k + 2)) { s with pending := wrInput bytes ++ rest } =
      run k { s.placeInput bytes with pending := rest } := by
  have ht : bytes.take 256 = bytes := List.take_of_length_le h
  let hi := hi8 (BitVec.ofNat 16 bytes.length)
  let lo := lo8 (BitVec.ofNat 16 bytes.length)
  let m := Memory.writeBytes s.mem (0x100 + 0) bytes
  have h1 := run_wrBytes_inBuf (k + 2) 0 s bytes (wr 0x008 hi :: wr 0x009 lo :: rest) (by omega)
  have h2 := run_wr (k + 1) { s with mem := m } 0x008 hi (wr 0x009 lo :: rest) (by omega)
    (by omega)
  have h3 := run_wr k { s with mem := m, inLenHi := hi } 0x009 lo rest (by omega) (by omega)
  rw [memStore_inLenHi] at h2
  rw [memStore_inLenLo] at h3
  have h4 := h1.trans (h2.trans h3)
  rw [wrInput, List.append_assoc]
  simpa [State.placeInput, ht, inBufBase, hi, lo, m] using h4

end Sys2Proof.Machine
end

