-- ==== Sys2Proof/Tests/Slice0.lean ====
section
/-! SUPPORT. Tests: expected values are written out from spec/30_encoding.md and from the vectors of
spec/95_test_vectors.md (V1 to V68), never from the model; and a witness for the hypotheses of each
statement of Certificates/Slice0/Obligations.lean. -/

namespace Sys2Proof.Tests

open Sys2Proof Sys2Proof.Machine

/-! ### Helpers -/

/-- The next state, if there is one. -/
def nextOf : Host.Outcome State Fault Refusal → Option State
  | .next t => some t
  | .fault _ => none
  | .refused _ => none

/-- Why a step was refused, if it was. -/
def refusalOf : Host.Outcome State Fault Refusal → Option Refusal
  | .next _ => none
  | .fault _ => none
  | .refused why => some why

/-- The reset state with the host's accesses still to come. -/
def host (l : List HostAction) : State := { State.reset with pending := l }

/-- The reset state with build operands (ADDR, FC, START, CNT). -/
def operands (a f sHi sLo nHi nLo : Byte) : State :=
  { State.reset with
    addr := a, fc := f, startHi := sHi, startLo := sLo, cntHi := nHi, cntLo := nLo }

/-- The reset state with an input in place and parse operands (ADDR, FC, CNT). -/
def response (bytes : List Byte) (a f nHi nLo : Byte) : State :=
  { State.reset.placeInput bytes with addr := a, fc := f, cntHi := nHi, cntLo := nLo }

/-- The reset state with an input in place and SENT_REQ. -/
def echo (bytes : List Byte) (q : Vector Byte 6) : State :=
  { State.reset.placeInput bytes with sentReq := q }

/-- The sent request of vectors V52 to V59. -/
def sent : Vector Byte 6 := #v[0x01, 0x06, 0x00, 0x01, 0x00, 0x03]

/-- V30's frame. -/
def v30 : List Byte := [0x01, 0x03, 0x02, 0x00, 0xFF, 0xF8, 0x04]

/-! ### WellFormed refuses ill-formed terms -/

theorem test_wf_refuses_reserved_word_4 : (Instr.reservedCmd 0x04).wf = false := by decide
theorem test_wf_takes_reserved_word_5 : (Instr.reservedCmd 0x05).wf = true := by decide
theorem test_wf_refuses_126_words :
    (Instr.readResp 0x01 0x03 0xFC (List.replicate 126 0) 0).wf = false := by
  decide +kernel
theorem test_wf_takes_125_words :
    (Instr.readResp 0x01 0x03 0xFA (List.replicate 125 0) 0).wf = true := by
  decide +kernel

/-! ### Decoding: words written out from R71, R72 and R75 to R78 -/

theorem test_decode_crc16 : decode .command [0b00000_000] = .ok .crc16 := by decide
theorem test_decode_buildRead : decode .command [0b00000_001] = .ok .buildRead := by decide
theorem test_decode_buildWriteSingle :
    decode .command [0b00000_010] = .ok .buildWriteSingle := by decide
theorem test_decode_parseRead : decode .command [0b00000_011] = .ok .parseRead := by decide
theorem test_decode_parseWriteSingle :
    decode .command [0b00000_100] = .ok .parseWriteSingle := by decide

/-- OP = 5, then RSV = 0b10000 with OP = 1 (V61), then 0xFF (V62). -/
theorem test_decode_reservedCmd :
    decode .command [0b00000_101] = .ok (.reservedCmd 0x05) ∧
    decode .command [0b10000_001] = .ok (.reservedCmd 0x81) ∧
    decode .command [0b11111_111] = .ok (.reservedCmd 0xFF) := by decide

/-- V13: addr 0x11, start 0x006B, count 0x0003, trailer low byte first. -/
theorem test_decode_readReqFc03 :
    decode .request [0x11, 0x03, 0x00, 0x6B, 0x00, 0x03, 0x76, 0x87] =
      .ok (.readReqFc03 0x11 0x006B 0x0003) := by decide

/-- V16. -/
theorem test_decode_readReqFc04 :
    decode .request [0x0A, 0x04, 0x00, 0x00, 0x00, 0x04, 0xF0, 0xB2] =
      .ok (.readReqFc04 0x0A 0x0000 0x0004) := by decide

/-- V26. -/
theorem test_decode_writeSingleReq :
    decode .request [0x0A, 0x06, 0x00, 0x02, 0x0B, 0x01, 0xEF, 0x81] =
      .ok (.writeSingleReq 0x0A 0x0002 0x0B01) := by decide

/-- V33. -/
theorem test_decode_readResp :
    decode .response [0x0A, 0x04, 0x08, 0x08, 0xFD, 0x02, 0x00, 0x04, 0x9C, 0x30, 0x39, 0x38, 0xAE] =
      .ok (.readResp 0x0A 0x04 0x08 [0x08FD, 0x0200, 0x049C, 0x3039] 0xAE38) := by decide

/-- V53. -/
theorem test_decode_writeSingleResp :
    decode .response [0x01, 0x06, 0x00, 0x01, 0x00, 0x04, 0xD9, 0xC9] =
      .ok (.writeSingleResp 0x01 0x06 0x0001 0x0004 0xC9D9) := by decide

/-- A trailer high byte first, a function of 5, a frame of four bytes, a two-byte command. -/
theorem test_decode_rejects :
    decode .request [0x01, 0x03, 0x00, 0x00, 0x00, 0x01, 0x0A, 0x84] = .error .requestTrailer ∧
    decode .request (withTrailer [0x01, 0x05, 0x00, 0x00, 0x00, 0x01]) =
      .error (.requestFunction 0x05) ∧
    decode .response [0x01, 0x03, 0x02, 0x00] = .error (.frameLength 4) ∧
    decode .command [0x01, 0x02] = .error (.commandNotOneByte 2) := by decide

theorem test_encode :
    encode (.readReqFc03 0xF7 0xFFFF 0x007D) =
      (.request, [0xF7, 0x03, 0xFF, 0xFF, 0x00, 0x7D, 0x91, 0x59]) ∧
    encode (.writeSingleReq 0x01 0xFFFF 0xFFFF) =
      (.request, [0x01, 0x06, 0xFF, 0xFF, 0xFF, 0xFF, 0x88, 0x5E]) ∧
    encode (.readResp 0x01 0x03 0x02 [0x00FF] 0x04F8) = (.response, v30) := by decide

/-- Byte 0 of a table number is its least significant byte (log 6). -/
theorem test_decodeTableWord :
    decodeTableWord 8 0x02 = some .buildWriteSingle ∧
    decodeTableWord 64 0x0A84010000000301 = some (.readReqFc03 0x01 0x0000 0x0001) ∧
    decodeTableWord 64 0xCA31010000000401 = some (.readReqFc04 0x01 0x0000 0x0001) ∧
    decodeTableWord 64 0x0B98030001000601 = some (.writeSingleReq 0x01 0x0001 0x0003) ∧
    decodeTableWord 56 0x04F8FF00020301 = some (.readResp 0x01 0x03 0x02 [0x00FF] 0x04F8) ∧
    decodeTableWord 16 0x0000 = some (.writeSingleResp 0x00 0x00 0x0000 0x0000 0x0000) ∧
    decodeTableWord 72 0x2000CDAB3412040301 =
      some (.readResp 0x01 0x03 0x04 [0x1234, 0xABCD] 0x2000) := by decide

theorem test_withFetchWord :
    nextOf (step (State.reset.withFetchWord 8 0x01)) =
      nextOf (exec .buildRead { State.reset with cmd := 0x01 }) ∧
    nextOf (step (State.reset.withFetchWord 64 0x0A84010000000301)) =
      nextOf (exec (.readReqFc03 0x01 0x0000 0x0001) State.reset) := by decide

/-! ### One step of each instruction -/

/-- V64c: an empty input from reset. -/
theorem test_crc16_empty :
    (nextOf (exec .crc16 State.reset)).map (fun t => (t.crcOut, t.status)) =
      some (0xFFFF, 0x80) := by decide

/-- V8: the residue of a whole frame. -/
theorem test_crc16_residue :
    (nextOf (exec .crc16 (response [0x01, 0x03, 0x00, 0x00, 0x00, 0x01, 0x84, 0x0A] 0 0 0 0))).map
      (fun t => (t.crcOut, t.status)) = some (0x0000, 0x80) := by decide

/-- V15. -/
theorem test_buildRead :
    (nextOf (exec .buildRead (operands 0x01 0x03 0x12 0x34 0x00 0x02))).map
      (fun t => (t.frameOut, t.outLen, t.crcOut, t.status)) =
      some ([0x01, 0x03, 0x12, 0x34, 0x00, 0x02, 0x80, 0xBD], 8, 0xBD80, 0x80) := by decide

/-- V22a, V20: function 6, count 0. -/
theorem test_buildRead_fails :
    (nextOf (exec .buildRead (operands 0x01 0x06 0x00 0x00 0x00 0x01))).map State.status =
      some 0x81 ∧
    (nextOf (exec .buildRead (operands 0x01 0x03 0x00 0x00 0x00 0x00))).map State.status =
      some 0x81 := by decide

/-- V24, with FC holding 3: byte 1 is 0x06 whatever FC is. -/
theorem test_buildWriteSingle :
    (nextOf (exec .buildWriteSingle (operands 0x11 0x03 0x00 0x01 0x00 0x03))).map
      (fun t => (t.frameOut, t.outLen, t.crcOut, t.status)) =
      some ([0x11, 0x06, 0x00, 0x01, 0x00, 0x03, 0x9A, 0x9B], 8, 0x9B9A, 0x80) := by decide

/-- V17s, V25z: what the other parameter values of R7 refuse. -/
theorem test_builds_other_parameters :
    (buildReadCommand { Params.block with strictRange := true }
      (operands 0xFF 0x04 0x00 0x00 0x00 0x01)).status = 0x81 ∧
    (buildWriteSingleCommand { Params.block with rejectZeroWriteValue := true }
      (operands 0x01 0x00 0x00 0x00 0x00 0x00)).status = 0x81 := by decide

/-- V31: two words, each high byte first. -/
theorem test_parseRead :
    (nextOf (exec .parseRead
      (response [0x01, 0x03, 0x04, 0x12, 0x34, 0xAB, 0xCD, 0x00, 0x20] 0x01 0x03 0x00 0x02))).map
      (fun t => (t.wordOut 0, t.wordOut 1, t.wordsLen, t.status)) =
      some (0x1234, 0xABCD, 2, 0x80) := by decide

/-- V49, V48, V47, V42, V38: length with no wrap, then CRC before address before function before byte
count. -/
theorem test_parseRead_order :
    [response v30 0x01 0x03 0xFF 0xFF,
      response [0x02, 0x03, 0x02, 0x00, 0x01, 0xC2, 0x84] 0x01 0x03 0x00 0x01,
      response [0x02, 0x04, 0x02, 0x00, 0x01, 0x3C, 0xF0] 0x01 0x03 0x00 0x01,
      response [0x01, 0x83, 0x02, 0x00, 0x00, 0x91, 0x84] 0x01 0x03 0x00 0x01,
      response [0x01, 0x03, 0x04, 0x00, 0xFF, 0x18, 0x05] 0x01 0x03 0x00 0x01].map
        (fun s => (nextOf (exec .parseRead s)).map State.status) =
      [some 0x85, some 0x82, some 0x83, some 0x84, some 0x85] := by decide

/-- V52. -/
theorem test_parseWriteSingle :
    (nextOf (exec .parseWriteSingle
      (echo [0x01, 0x06, 0x00, 0x01, 0x00, 0x03, 0x98, 0x0B] sent))).map State.status =
      some 0x80 := by decide

/-- V58, V57, V55, V59, V54: length, CRC, address, function, register. -/
theorem test_parseWriteSingle_order :
    [[0x01, 0x06, 0x00, 0x01, 0x00, 0x03, 0x98, 0x0B, 0x00],
      [0x01, 0x06, 0x00, 0x01, 0x00, 0x03, 0x98, 0x8B],
      [0x02, 0x06, 0x00, 0x01, 0x00, 0x03, 0x98, 0x38],
      [0x01, 0x03, 0x00, 0x01, 0x00, 0x03, 0x54, 0x0B],
      [0x01, 0x06, 0x00, 0x02, 0x00, 0x03, 0x68, 0x0B]].map
        (fun bytes => (nextOf (exec .parseWriteSingle (echo bytes sent))).map State.status) =
      [some 0x85, some 0x82, some 0x83, some 0x84, some 0x85] := by decide

/-- V60: `WR 000, 05` from reset. -/
theorem test_reservedCmd :
    nextOf (step (host [wr 0x000 0x05])) =
      some { State.reset with cmd := 0x05, status := 0x8F } := by decide

/-- V10, V51, V52x: IN_LEN = 257. -/
theorem test_inLen_257 :
    ([Instr.crc16, .parseRead, .parseWriteSingle].map fun i =>
      (nextOf (exec i { State.reset with inLenHi := 0x01, inLenLo := 0x01, wordsLen := 3 })).map
        fun t => (t.status, t.wordsLen)) =
      [some (0x8F, 3), some (0x8F, 0), some (0x8F, 3)] := by decide

/-- V14. -/
theorem test_readReqFc03 :
    (nextOf (exec (.readReqFc03 0xF7 0xFFFF 0x007D) State.reset)).map
      (fun t => (t.frameOut, t.fc, t.status)) =
      some ([0xF7, 0x03, 0xFF, 0xFF, 0x00, 0x7D, 0x91, 0x59], 0x03, 0x80) := by decide

/-- V12. -/
theorem test_readReqFc04 :
    (nextOf (exec (.readReqFc04 0x01 0x0000 0x0001) State.reset)).map
      (fun t => (t.frameOut, t.fc, t.status)) =
      some ([0x01, 0x04, 0x00, 0x00, 0x00, 0x01, 0x31, 0xCA], 0x04, 0x80) := by decide

/-- V26, with FC left alone (the end state of program P2). -/
theorem test_writeSingleReq :
    (nextOf (exec (.writeSingleReq 0x0A 0x0002 0x0B01) State.reset)).map
      (fun t => (t.frameOut, t.fc, t.status)) =
      some ([0x0A, 0x06, 0x00, 0x02, 0x0B, 0x01, 0xEF, 0x81], 0x00, 0x80) := by decide

/-- V32: the frame against the operands it answers. -/
theorem test_readResp :
    (nextOf (exec (.readResp 0x05 0x04 0x02 [0x00E7] 0xBA08)
      (operands 0x05 0x04 0x00 0x00 0x00 0x01))).map
      (fun t => (t.wordOut 0, t.wordsLen, t.inLen, t.status)) =
      some (0x00E7, 1, 7, 0x80) := by decide

/-- V53: a wrong echo of the value. -/
theorem test_writeSingleResp :
    (nextOf (exec (.writeSingleResp 0x01 0x06 0x0001 0x0004 0xC9D9)
      { State.reset with sentReq := sent })).map (fun t => (t.inLen, t.status)) =
      some (8, 0x85) := by decide

/-! ### The register space -/

/-- R73, R74 and V64b: CNT_HI is at 0x006, SENT_REQ[5] at 0x015, 0x00E and 0x300 are reserved. -/
theorem test_register_map :
    (nextOf (step (host [wr 0x006 0x12]))).map State.cnt = some 0x1200 ∧
    (nextOf (step (host [wr 0x015 0x34]))).map (fun s => s.sentReq[5]) = some 0x34 ∧
    (nextOf (step (host [.read 0x00E 1]))).map State.readData = some 0x00 ∧
    (nextOf (step (host [.read 0x300 1]))).map State.readData = some 0x00 := by decide

/-- V64: a write to STATUS is ignored. -/
theorem test_write_status_ignored :
    nextOf (step (host [wr 0x001 0x55])) = some State.reset := by decide

/-- R51. -/
theorem test_refusals :
    refusalOf (step (host [.write 0x002 [0x01, 0x02]])) = some (.accessWidth 2) ∧
    refusalOf (step (host [.read 0x400 1])) = some (.offsetOutOfSpace 0x400) := by decide

/-- FRAME_MAX = 8: IN_BUF[7] is the last byte of IN_BUF, and 0x108 is reserved. -/
theorem test_frameMax_8 :
    regAt { Params.block with frameMax := 8 } 0x107 = .inBuf 7 ∧
    regAt { Params.block with frameMax := 8 } 0x108 = .reserved := by decide

/-- The statement `CRC16 [...]` of R84 expands to its writes in order. -/
theorem test_expand_crc16 :
    (Statement.crc16 [0x31, 0x32]).expand =
      [.write 0x100 [0x31], .write 0x101 [0x32], .write 0x008 [0x00], .write 0x009 [0x02],
        .write 0x000 [0x00]] := by decide

/-! ### Witnesses: the hypotheses of each statement can be met, each clause at a boundary -/

theorem witness_DecodeEncodeRoundTrip :
    (Instr.readResp 0xFF 0xFF 0xFF (List.replicate 125 0xFFFF) 0xFFFF).wf = true ∧
    (Instr.reservedCmd 0x05).wf = true ∧ (Instr.reservedCmd 0xFF).wf = true ∧
    (Instr.readReqFc03 0x00 0xFFFF 0x0000).wf = true := by decide +kernel

theorem witness_EncodeDecodeRoundTrip :
    decode .command [0xFF] = .ok (.reservedCmd 0xFF) ∧
    decode .request [0x01, 0x06, 0x00, 0x01, 0x00, 0x03, 0x98, 0x0B] =
      .ok (.writeSingleReq 0x01 0x0001 0x0003) ∧
    decode .response [0x01, 0x03, 0x00, 0x20, 0xF0] = .ok (.readResp 0x01 0x03 0x00 [] 0xF020) := by
  decide

/-- A command word, a request frame and a response frame, each the host's next access. -/
theorem witness_StepRunsDecodedInstruction :
    ((host [wr 0x000 0x03]).pending = [wr 0x000 0x03] ∧
      (wr 0x000 0x03).instrBytes 0x00 = some (.command, [0x03]) ∧
      decode .command [0x03] = .ok .parseRead) ∧
    ((HostAction.writeBack 0x000).instrBytes 0x05 = some (.command, [0x05]) ∧
      decode .command [0x05] = .ok (.reservedCmd 0x05)) ∧
    ((HostAction.request (requestFrame 0x01 0x03 0 1)).instrBytes 0x00 =
        some (.request, requestFrame 0x01 0x03 0 1) ∧
      decode .request (requestFrame 0x01 0x03 0 1) = .ok (.readReqFc03 0x01 0 1)) ∧
    ((HostAction.response v30).instrBytes 0x00 = some (.response, v30) ∧
      decode .response v30 = .ok (.readResp 0x01 0x03 0x02 [0x00FF] 0x04F8)) := by decide

theorem witness_CmdWriteStoresAndRuns :
    (host [.write 0x000 [0x01]]).pending = .write 0x000 [0x01] :: [] ∧
    (host [.write 0x001 [0x01]]).pending = .write 0x001 [0x01] :: [] ∧ 0x001 ≠ 0x000 ∧
    (host [.write 0x3FF [0x01]]).pending = .write 0x3FF [0x01] :: [] ∧ 0x3FF ≤ 0x3FF := by decide

/-- Both branches at the ends of their ranges. -/
theorem witness_HostWriteEffects :
    (([0x002, 0x009, 0x010, 0x015, 0x100, 0x1FF] : List Nat).map fun off =>
      (nextOf (step (host [.write off [0xA5]]))).map fun t => t.memRead Params.block off) =
      List.replicate 6 (some 0xA5) ∧
    (([0x001, 0x00A, 0x00F, 0x016, 0x0FF, 0x200, 0x3FF] : List Nat).map fun off =>
      nextOf (step (host [.write off [0xA5]]))) = List.replicate 7 (some State.reset) := by decide

theorem witness_ReservedOffsetsReadZero :
    (([0x00E, 0x00F, 0x016, 0x017, 0x020, 0x0FF, 0x300, 0x3FF] : List Nat).map fun off =>
      (nextOf (step { State.reset with readData := 0xFF, pending := [.read off 1] })).map
        State.readData) = List.replicate 8 (some 0x00) := by decide

/-- Each case of a write-back at the ends of its ranges. -/
theorem witness_WriteBackEffects :
    ({ host [.writeBack 0x400] with readData := 0xA5 } : State).pending = .writeBack 0x400 :: [] ∧
    refusalOf (step { host [.writeBack 0x400] with readData := 0xA5 }) =
      some (.offsetOutOfSpace 0x400) ∧
    (nextOf (step { host [.writeBack 0x000] with readData := 0xA5 })).map State.status =
      some 0x8F ∧
    (([0x002, 0x009, 0x010, 0x015, 0x100, 0x1FF] : List Nat).map fun off =>
      (nextOf (step { host [.writeBack off] with readData := 0xA5 })).map fun t =>
        t.memRead Params.block off) = List.replicate 6 (some 0xA5) ∧
    (([0x001, 0x00A, 0x00F, 0x016, 0x0FF, 0x200, 0x3FF] : List Nat).map fun off =>
      nextOf (step { host [.writeBack off] with readData := 0xA5 })) =
      List.replicate 7 (some { State.reset with readData := 0xA5 }) := by decide

theorem witness_HostReadHasNoSideEffect :
    (host [.read 0x001 1]).pending = .read 0x001 1 :: [] ∧ 0x001 ≤ 0x3FF ∧
    (host [.read 0x3FF 1]).pending = .read 0x3FF 1 :: [] ∧ 0x300 ≤ 0x3FF := by decide

theorem witness_WideAndOutsideAccessesRefused :
    ([] : List Byte).length ≠ 1 ∧ ([0x01, 0x02] : List Byte).length ≠ 1 ∧ (0 : Nat) ≠ 1 ∧
    (2 : Nat) ≠ 1 ∧ 0x3FF < 0x400 := by decide

theorem witness_RegisterMapLayout :
    ({ Params.block with frameMax := 8 } : Params).wf = true ∧ Params.block.wf = true ∧
    ({ Params.block with frameMax := 7 } : Params).wf = false := by decide

/-- A reset of a block that has built a frame. -/
theorem witness_ResetEventEffect :
    (nextOf (run 2 (host [.request (requestFrame 0x01 0x03 0 1), .reset]))).map
      (fun t => (t.outLen, t.status, t.mem)) = some (0x00, 0x00, []) := by decide

theorem witness_IdleBlockStaysPut : State.reset.pending = [] := by decide

/-- A command, and a response frame that ends where the byte begins. -/
theorem witness_InputBytesChangeOnlyByHostWrites :
    ((host [wr 0x000 0x03]).pending = wr 0x000 0x03 :: [] ∧
      (nextOf (step (host [wr 0x000 0x03]))).isSome = true ∧ 255 < 256 ∧
      wr 0x000 0x03 ≠ .reset ∧ (∀ bytes, wr 0x000 0x03 ≠ .write (0x100 + 255) bytes) ∧
      wr 0x000 0x03 ≠ .writeBack (0x100 + 255) ∧
      ∀ f, wr 0x000 0x03 = .response f → f.length ≤ 255) ∧
    ((nextOf (step (host [.response v30]))).isSome = true ∧
      ∀ f, HostAction.response v30 = .response f → f.length ≤ 7) := by
  refine ⟨⟨rfl, by decide, by decide, by decide, ?_, by decide, ?_⟩, by decide, ?_⟩
  · intro _ h
    cases h
  · intro _ h
    cases h
  · intro _ h
    cases h
    decide

/-- The last bit of the shortest sequence, and the first of another. -/
theorem witness_SingleBitErrorsAreDetected :
    15 < 8 * (([] : List Byte).length + 2) ∧ 0 < 8 * (([0x01] : List Byte).length + 2) := by decide

/-- Parameters other than this block's: the smallest FRAME_MAX, codes 3 and 2 (R7). -/
def otherParams : Params :=
  { Params.block with
    frameMax := 8
    lengthErrorCode := .addressMismatch
    echoErrorCode := .crcMismatch }

/-- IN_LEN at FRAME_MAX and one above it, V41's and V30's frame, and V58's and V54's frames. -/
theorem test_parsers_other_parameters :
    (crc16Command otherParams (response [1, 2, 3, 4, 5, 6, 7, 8] 0 0 0 0)).status = 0x80 ∧
    (crc16Command otherParams (response [1, 2, 3, 4, 5, 6, 7, 8, 9] 0 0 0 0)).status = 0x8F ∧
    (parseReadCommand otherParams
      (response [0x01, 0x83, 0x02, 0xC0, 0xF1] 0x01 0x03 0x00 0x01)).status = 0x83 ∧
    (parseReadCommand otherParams (response v30 0x01 0x03 0x00 0x01)).status = 0x80 ∧
    (parseWriteSingleCommand otherParams
      (echo [0x01, 0x06, 0x00, 0x01, 0x00, 0x03, 0x98, 0x0B, 0x00] sent)).status = 0x8F ∧
    (parseWriteSingleCommand { otherParams with frameMax := 256 }
      (echo [0x01, 0x06, 0x00, 0x01, 0x00, 0x03, 0x98, 0x0B, 0x00] sent)).status = 0x83 ∧
    (parseWriteSingleCommand otherParams
      (echo [0x01, 0x06, 0x00, 0x02, 0x00, 0x03, 0x68, 0x0B] sent)).status = 0x82 := by decide

theorem witness_Crc16UnderEveryFrameMax : otherParams.wf = true ∧ Params.block.wf = true := by
  decide

/-- The status of a success and of a failed length check meet the hypothesis on it. -/
theorem witness_ParseReadUnderEveryParameterSetting :
    otherParams.wf = true ∧
    ∀ c ∈ [(response v30 0x01 0x03 0x00 0x01, (0x80 : Byte)),
        (response v30 0x01 0x03 0x00 0x02, 0x83)],
      c.2 = (if otherParams.frameMax < c.1.inLen.toNat then 0x8F
        else if c.1.inLen.toNat ≠ 5 + 2 * c.1.cnt.toNat then
          mismatchByte otherParams.lengthErrorCode
        else if crc16 (c.1.input (c.1.inLen.toNat - 2)) ≠
            u16 (c.1.bufByte (0x100 + (c.1.inLen.toNat - 1)))
              (c.1.bufByte (0x100 + (c.1.inLen.toNat - 2))) then 0x82
        else if c.1.bufByte 0x100 ≠ c.1.addr then 0x83
        else if c.1.bufByte 0x101 ≠ c.1.fc then 0x84
        else if (c.1.bufByte 0x102).toNat ≠ 2 * c.1.cnt.toNat then 0x85
        else 0x80) := by decide

theorem witness_ParseWriteSingleUnderEveryParameterSetting :
    otherParams.wf = true ∧ ({ otherParams with frameMax := 256 } : Params).wf = true := by decide

/-- V30 and V34, a word and no word. -/
theorem witness_ParseReadExtractsWords :
    ∀ s ∈ [response v30 0x01 0x03 0x00 0x01,
        response [0x01, 0x03, 0x00, 0x20, 0xF0] 0x01 0x03 0x00 0x00],
      s.inLen.toNat ≤ 256 ∧ s.inLen.toNat = 5 + 2 * s.cnt.toNat ∧
      crc16 (s.input (s.inLen.toNat - 2)) =
        u16 (s.bufByte (0x100 + (s.inLen.toNat - 1))) (s.bufByte (0x100 + (s.inLen.toNat - 2))) ∧
      s.bufByte 0x100 = s.addr ∧ s.bufByte 0x101 = s.fc ∧
      (s.bufByte 0x102).toNat = 2 * s.cnt.toNat := by decide

/-- A build of each kind that succeeds, and one that fails. -/
theorem witness_BuildsWriteExactlyTheirResults :
    (((Instr.buildRead = .buildRead ∧ (0x03 : Byte) = (operands 0x01 0x03 0 0 0 1).fc) ∨
        (Instr.buildRead = .buildWriteSingle ∧ (0x03 : Byte) = 0x06)) ∧
      (nextOf (exec .buildRead (operands 0x01 0x03 0 0 0 1))).map State.status = some 0x80) ∧
    (((Instr.buildWriteSingle = .buildRead ∧ (0x06 : Byte) = State.reset.fc) ∨
        (Instr.buildWriteSingle = .buildWriteSingle ∧ (0x06 : Byte) = 0x06)) ∧
      (nextOf (exec .buildWriteSingle State.reset)).map State.status = some 0x81) := by decide

theorem witness_ReservedWordsEndIllegal :
    5 ≤ (0x05 : Byte).toNat ∧ 5 ≤ (0xFF : Byte).toNat := by decide

theorem witness_IllegalCommandCases :
    ((host [.write 0x000 [0x05]]).pending = .write 0x000 [0x05] :: [] ∧ 5 ≤ (0x05 : Byte).toNat) ∧
    256 < ({ State.reset with inLenHi := 0x01, inLenLo := 0x01 } : State).inLen.toNat := by decide

/-- The smallest such count, with a length that fits and with one that does not. -/
theorem witness_LargeWordCountsNeverSucceed :
    126 ≤ (response v30 0x01 0x03 0x00 0x7E).cnt.toNat ∧
    126 ≤ ({ State.reset with inLenHi := 0x01, inLenLo := 0x01, cntHi := 0x00, cntLo := 0x7E } :
      State).cnt.toNat := by decide

/-- V41's frame, with count 1, and V43's, with count 0; and a frame whose function is not FC. -/
theorem witness_ExceptionResponsesFailGenericChecks :
    (∀ n ∈ ([0x00, 0x01] : List Byte),
      (response [0x01, 0x83, 0x02, 0xC0, 0xF1] 0x01 0x03 0x00 n).inLen = 5 ∧
      (response [0x01, 0x83, 0x02, 0xC0, 0xF1] 0x01 0x03 0x00 n).input 5 =
        withTrailer [0x01, 0x03 ||| 0x80, 0x02]) ∧
    1 ≤ (response [0x01, 0x83, 0x02, 0xC0, 0xF1] 0x01 0x03 0x00 0x01).cnt.toNat ∧
    (response [0x01, 0x83, 0x02, 0xC0, 0xF1] 0x01 0x03 0x00 0x00).cnt = 0 ∧
    (response (withTrailer [0x01, 0x84, 0x02]) 0x01 0x03 0x00 0x00).inLen = 5 ∧
    (response (withTrailer [0x01, 0x84, 0x02]) 0x01 0x03 0x00 0x00).input 5 =
      withTrailer [0x01, 0x04 ||| 0x80, 0x02] ∧
    (response (withTrailer [0x01, 0x84, 0x02]) 0x01 0x03 0x00 0x00).addr = 0x01 ∧
    (response (withTrailer [0x01, 0x84, 0x02]) 0x01 0x03 0x00 0x00).fc = 3 := by decide

theorem witness_ReadRequestFramesBuilt :
    (((0x03 : Byte) = 0x03 ∧ Instr.readReqFc03 0x01 0 1 = .readReqFc03 0x01 0 1) ∨
      ((0x03 : Byte) = 0x04 ∧ Instr.readReqFc03 0x01 0 1 = .readReqFc04 0x01 0 1)) ∧
    (((0x04 : Byte) = 0x03 ∧ Instr.readReqFc04 0x00 0 1 = .readReqFc03 0x00 0 1) ∨
      ((0x04 : Byte) = 0x04 ∧ Instr.readReqFc04 0x00 0 1 = .readReqFc04 0x00 0 1)) := by decide

/-- The bound of the three statements about N data words. -/
theorem witness_ReadResponseFrameChecked :
    (List.replicate 125 (0xFFFF : Word)).length ≤ 125 ∧ ([] : List Word).length ≤ 125 := by simp

theorem witness_ResponseFramesAreTheirExpansion :
    (List.replicate 125 (0x0000 : Word)).length ≤ 125 := by simp

theorem witness_ReadResponseRoundTrip : ([0x1234, 0xABCD] : List Word).length ≤ 125 := by decide

theorem witness_Crc16StatementComputesChecksum :
    (List.replicate 256 (0xFF : Byte)).length ≤ 256 ∧ ([] : List Byte).length ≤ 256 := by decide +kernel

/-- And the whole program of that statement, run from reset on P2's request. -/
theorem witness_WriteSingleEchoAccepted :
    (0x0A : Byte) ≠ 0 ∧
    (nextOf (run 29 (host (expandProgram [.writeSingleReq 0x0A 0x0002 0x0B01, .copySentReq] ++
      (wrInput [0x0A, 0x06, 0x00, 0x02, 0x0B, 0x01, 0xEF, 0x81] ++ [wr 0x000 0x04]))))).map
      (fun t => (t.sentBytes, t.status)) =
      some ([0x0A, 0x06, 0x00, 0x02, 0x0B, 0x01], 0x80) := by decide

/-- The first and the last bit of V30 (V65) and of V52 (V67). -/
theorem witness_SingleBitCorruptionYieldsCrcMismatch :
    (∀ k ∈ [0, 55], ([0x00FF] : List Word).length ≤ 125 ∧
      k < 8 * (5 + 2 * ([0x00FF] : List Word).length) ∧
      (response (flipBit v30 k) 0x01 0x03 0x00 0x01).cnt.toNat = 1 ∧
      (response (flipBit v30 k) 0x01 0x03 0x00 0x01).inLen.toNat = 7 ∧
      (response (flipBit v30 k) 0x01 0x03 0x00 0x01).input 7 =
        flipBit (readResponse 0x01 0x03 [0x00FF]) k) ∧
    (∀ k ∈ [0, 63], k < 64 ∧
      (echo (flipBit (requestFrame 0x01 0x06 1 3) k) sent).inLen = 8 ∧
      (echo (flipBit (requestFrame 0x01 0x06 1 3) k) sent).input 8 =
        flipBit (requestFrame 0x01 0x06 1 3) k) := by decide

/-- Each command answers a next state: a success of each, and a failure. -/
theorem witness_CommandsWriteOnlyTheirResults :
    (nextOf (exec .crc16 State.reset)).map State.status = some 0x80 ∧
    (nextOf (exec .buildRead (operands 0x01 0x03 0 0 0 1))).map State.status = some 0x80 ∧
    (nextOf (exec .buildWriteSingle State.reset)).map State.status = some 0x81 ∧
    (nextOf (exec .parseRead (response v30 0x01 0x03 0x00 0x01))).map State.status = some 0x80 ∧
    (nextOf (exec .parseWriteSingle State.reset)).map State.status = some 0x85 ∧
    (nextOf (exec (.reservedCmd 0x05) State.reset)).map State.status = some 0x8F := by decide

/-- Two different states that agree on every operand: the stale results and the draws differ. -/
theorem witness_ResultsDependOnlyOnOperands :
    let s₁ := response v30 0x01 0x03 0x00 0x01
    let s₂ := { s₁ with draws := 7, crcOutHi := 0xAA, outLen := 8, cmd := 0x05 }
    s₁ ≠ s₂ ∧ s₁.inLen = s₂.inLen ∧ s₁.inLen.toNat ≤ 256 ∧
    s₁.input s₁.inLen.toNat = s₂.input s₁.inLen.toNat ∧ s₁.addr = s₂.addr ∧ s₁.fc = s₂.fc ∧
    s₁.start = s₂.start ∧ s₁.cnt = s₂.cnt ∧ s₁.sentReq = s₂.sentReq := by decide

/-- A step that changes each result: CRC_OUT and the frame by BUILD_READ, the words by PARSE_READ and
by a response frame. -/
theorem witness_ResultsPersist :
    (nextOf (step { operands 0x01 0x03 0 0 0 1 with pending := [wr 0x000 0x01] })).map
      (fun t => (decide (t.crcOut ≠ State.reset.crcOut), decide (t.outLen ≠ State.reset.outLen))) =
      some (true, true) ∧
    (nextOf (step { response v30 0x01 0x03 0x00 0x01 with pending := [wr 0x000 0x03] })).map
      (fun t => decide (t.wordsLen ≠ 0)) = some true ∧
    (nextOf (step { operands 0x01 0x03 0 0 0 1 with pending := [.response v30] })).map
      (fun t => decide (t.wordsLen ≠ 0)) = some true ∧
    wr 0x000 0x01 ≠ .reset ∧ HostAction.response v30 ≠ .reset := by decide

/-- A state with a frame and a word that count as results, and a step of it. -/
def withResults : State :=
  { State.reset with
    status := 0x80
    outLen := 8
    wordsLen := 1
    mem := Memory.writeBytes
      (Memory.writeBytes [] 0x018 [0x01, 0x03, 0x00, 0x00, 0x00, 0x01, 0x84, 0x0A]) 0x200 [0x00, 0xFF]
    pending := [.write 0x000 [0x05]] }

theorem witness_ResultsInvariantKeptByEveryStep :
    withResults.Inv ∧ nextOf (step withResults) =
      some { withResults with pending := [], cmd := 0x05, status := 0x8F } := by
  refine ⟨⟨by decide, .inr ⟨.ok, by decide, by decide⟩, .inr ⟨by decide, ?_, ?_⟩, by decide, ?_⟩,
    by decide⟩
  · unfold State.written
    decide
  · exact ⟨0x01, 0x03, 0, 1, by decide, by decide, .inr ⟨.inl rfl, by decide⟩⟩
  · unfold State.written
    decide

/-- One access of every kind, at the ends of the register space. -/
theorem witness_AdmittedHostNeverStopsTheBlock :
    (host [wr 0x000 0xFF, wr 0x3FF 0x00, .read 0x3FF 1, .writeBack 0x000, .reset,
      .request (requestFrame 0x01 0x03 0 1), .response v30]).admitted = true := by decide

theorem witness_AdmittedProgramsRunToTheEnd :
    (host ((Statement.readHoldingReq 0x01 0x0000 0x0001).expand ++ [.read 0x001 1] ++
      (Statement.parseRead v30 0x01 0x03 0x0001).expand)).admitted = true := by decide

end Sys2Proof.Tests
end

section
/-! The register space after reset (spec/10_state.md R41). The lemmas leave the model's own fields
free, so that they speak of the power-up state and of the state a reset event leaves alike. -/

namespace Sys2Proof.Machine

/-- Outside the three buffers the map of this block has only named registers, SENT_REQ and reserved
bytes (spec/30_encoding.md R73). -/
theorem regAt_of_not_buffer (off : Nat) (h : isBufferOffset off = false) :
    (off < 0x00E ∧ regAt Params.block off = namedRegs.getD off .reserved) ∨
    (∃ k : Fin 6, regAt Params.block off = .sentReq k) ∨
    regAt Params.block off = .reserved := by
  simp only [isBufferOffset, Bool.or_eq_false_iff, Bool.and_eq_false_iff, decide_eq_false_iff_not]
    at h
  obtain ⟨⟨hframe, hin⟩, hwords⟩ := h
  rcases regAt_cases Params.block off with named | ⟨k, _, hr⟩ | ⟨k, _, he, _⟩ | ⟨k, hk, he, _⟩ |
    ⟨k, _, he, _⟩ | ⟨_, hr⟩
  · exact .inl named
  · exact .inr (.inl ⟨k, hr⟩)
  · omega
  · rw [frameMax_block] at hk
    omega
  · omega
  · exact .inr (.inr hr)

/-- Every offset outside the buffers reads 0x00 when the registers are at their reset values. -/
theorem memRead_reset_of_not_buffer (draws : Nat) (readData : Byte) (pending : List HostAction)
    (off : Nat) (h : isBufferOffset off = false) :
    ({ State.reset with draws, readData, pending } : State).memRead Params.block off = 0x00 := by
  rw [State.memRead]
  rcases regAt_of_not_buffer off h with ⟨hoff, hr⟩ | ⟨k, hr⟩ | hr <;> rw [hr]
  · interval_cases off <;> rfl
  · exact Vector.getElem_replicate k.isLt
  · rfl

/-- No byte has been written where the memory is empty (spec/10_state.md R41). -/
theorem not_written_of_mem_nil (s : State) (h : s.mem = []) (off : Nat) : ¬ s.written off := by
  simp [State.written, h, Memory.lookup]

end Sys2Proof.Machine

open Sys2Proof.Machine

/-- Settles O14: the offsets outside the buffers by the register map, the buffers by the empty
memory. -/
theorem resetValues : Obligations.ResetValues :=
  ⟨memRead_reset_of_not_buffer 0 0x00 [], not_written_of_mem_nil State.reset rfl⟩
end

section
/-! One step whose next access is a byte access of the host (spec/20_memory.md R54 to R57), and the
obligations on the register space that follow from it and from the laws of `memRead` and `memStore`. -/

namespace Sys2Proof.Machine

/-- A step that writes a byte inside the space, but not to CMD, is the store alone (R55). -/
theorem step_write_store (s : State) (off : Nat) (v : Byte) (rest : List HostAction)
    (hp : s.pending = .write off [v] :: rest) (h0 : off ≠ 0x000) (hoff : off ≤ 0x3FF) :
    step s = .next (({ s with pending := rest } : State).memStore Params.block off v) :=
  (step_cons s _ rest hp).trans (performWrite_store off v _ h0 hoff)

/-- A step that writes CMD stores the byte and runs its command (R56). -/
theorem step_write_cmd (s : State) (v : Byte) (rest : List HostAction)
    (hp : s.pending = .write 0x000 [v] :: rest) :
    step s = exec (decodeCommand v) { s with pending := rest, cmd := v } :=
  (step_cons s _ rest hp).trans (performWrite_cmd v _)

/-- A byte read inside the space hands the host the byte and does nothing else (R54). -/
theorem performRead_inside (off : Nat) (s : State) (hoff : off ≤ 0x3FF) :
    performRead off 1 s = .next { s with readData := s.memRead Params.block off } := by
  have hinside : ¬ lastOffset < off := Nat.not_lt.mpr hoff
  rw [performRead, if_neg (by simp), if_neg hinside]

/-- The host's list of accesses is no part of the register space. -/
theorem memRead_withPending (p : Params) (s : State) (pending : List HostAction) (off : Nat) :
    ({ s with pending } : State).memRead p off = s.memRead p off := by
  simp only [State.memRead]
  cases regAt p off <;> rfl

/-- A step that reads a byte inside the space changes only what the host holds (R54). -/
theorem step_read (s : State) (off : Nat) (rest : List HostAction)
    (hp : s.pending = .read off 1 :: rest) (hoff : off ≤ 0x3FF) :
    step s = .next { s with pending := rest, readData := s.memRead Params.block off } := by
  rw [← memRead_withPending Params.block s rest off]
  exact (step_cons s _ rest hp).trans (performRead_inside off _ hoff)

end Sys2Proof.Machine

open Sys2Proof Sys2Proof.Machine

/-- Settles O6: a write to CMD by the step's own case, any other write by the frame of a store. -/
theorem cmdWriteStoresAndRuns : Obligations.CmdWriteStoresAndRuns :=
  ⟨step_write_cmd, fun s off v rest hp h0 hoff =>
    ⟨_, step_write_store s off v rest hp h0 hoff, memStore_frame _ off v⟩⟩

/-- Settles O7: the step is the store of the byte, which is read back where the map has a writable
byte and is ignored everywhere else. -/
theorem hostWriteEffects : Obligations.HostWriteEffects := by
  intro s off v rest hp h0 hoff
  refine ⟨_, step_write_store s off v rest hp h0 hoff, ?_⟩
  split_ifs with hrw
  · have hwritable : off = 0x000 ∨ (0x002 ≤ off ∧ off ≤ 0x009) ∨ (0x010 ≤ off ∧ off ≤ 0x015) ∨
        (0x100 ≤ off ∧ off < 0x100 + Params.block.frameMax) := by
      rw [frameMax_block]
      omega
    exact ⟨memRead_memStore_self _ _ off v hwritable (by decide), memStore_frame _ off v⟩
  · apply memStore_ignored
    rw [frameMax_block]
    omega

/-- Settles O8: the read by what a reserved offset holds, the write by the store it ignores. -/
theorem reservedOffsetsReadZero : Obligations.ReservedOffsetsReadZero := by
  intro s off v rest hreserved
  have hoff : off ≤ 0x3FF := by omega
  constructor
  · rw [step_read _ off rest rfl hoff, memRead_reserved _ _ off (by omega) (by decide)]
  · rw [step_write_store _ off v rest rfl (by omega) hoff, memStore_ignored]
    rw [frameMax_block]
    omega

/-- Settles O9: the step's own case for a read, and what a reserved offset holds. -/
theorem hostReadHasNoSideEffect : Obligations.HostReadHasNoSideEffect :=
  fun s off rest hp hoff =>
    ⟨step_read s off rest hp hoff, fun hreserved =>
      memRead_reserved _ s off (by omega) (by decide)⟩
end

section
/-! What the register map reads at the offsets of SENT_REQ and of the three buffers
(spec/30_encoding.md R73). -/

namespace Sys2Proof.Machine

theorem memRead_sentReq (p : Params) (s : State) (k : Fin 6) :
    s.memRead p (0x010 + k) = s.sentReq[k] := by
  rw [State.memRead, regAt_sentReq p k k.isLt]
  rfl

theorem memRead_frameOut (p : Params) (s : State) (k : Nat) (h : k < 8) :
    s.memRead p (0x018 + k) = byteAt s.frameOut k := by
  rw [State.frameOut, byteAt_bufBytes _ _ _ _ h, ← frameOutBase_eq, State.memRead,
    regAt_frameOut p k h]
  rfl

/-- An IN_BUF byte is the byte of every input sequence that reaches it (spec/00_scope.md R12). -/
theorem memRead_inBuf (p : Params) (s : State) (n k : Nat) (hk : k < n) (hn : n ≤ p.frameMax) :
    s.memRead p (0x100 + k) = byteAt (s.input n) k := by
  rw [byteAt_input s n k hk, ← inBufBase_eq, State.memRead, regAt_inBuf p k (by omega)]
  rfl

theorem memRead_wordsOut (p : Params) (s : State) (k : Nat) (hp : p.frameMax ≤ 256)
    (h : k < 256) : s.memRead p (0x200 + k) = s.bufByte (0x200 + k) := by
  rw [← wordsOutBase_eq, State.memRead, regAt_wordsOut p k hp h]
  rfl

/-- A word of WORDS_OUT is read high byte first (spec/20_memory.md R52). -/
theorem memRead_wordOut (p : Params) (s : State) (i : Nat) (hp : p.frameMax ≤ 256)
    (h : i < 128) :
    s.memRead p (0x200 + 2 * i) = hi8 (s.wordOut i) ∧
      s.memRead p (0x201 + 2 * i) = lo8 (s.wordOut i) := by
  have hlow : 0x201 + 2 * i = 0x200 + (2 * i + 1) := by omega
  rw [hlow, memRead_wordsOut p s (2 * i) hp (by omega),
    memRead_wordsOut p s (2 * i + 1) hp (by omega), State.wordOut, hi8_u16, lo8_u16]
  exact ⟨rfl, rfl⟩

end Sys2Proof.Machine

open Sys2Proof Sys2Proof.Machine

/-- Settles O11: one rule of the register map for each range of R73. The bound on FRAME_MAX keeps
IN_BUF below WORDS_OUT. -/
theorem registerMapLayout : Obligations.RegisterMapLayout := by
  intro p s v hwf
  rw [Params.wf, Bool.and_eq_true, decide_eq_true_eq, decide_eq_true_eq] at hwf
  obtain ⟨-, hmax⟩ := hwf
  refine ⟨rfl, memRead_sentReq p s, memRead_frameOut p s,
    fun k hk => memRead_inBuf p s p.frameMax k hk le_rfl,
    fun i hi => memRead_wordOut p s i hmax hi, ?_, ?_, ?_⟩
  · intro off hreserved
    exact ⟨memRead_reserved p s off (by omega) hmax, memStore_ignored p s off v (by omega)⟩
  · intro off hwritable
    exact memRead_memStore_self p s off v hwritable hmax
  · intro off hreadOnly
    exact memStore_ignored p s off v (by omega)
end

section
/-! Command words and 16-bit values as numbers (spec/30_encoding.md R71, R72,
spec/00_scope.md R10). -/

namespace Sys2Proof.Machine

/-- A 16-bit value is unsigned, its high byte counting 256 (spec/00_scope.md R10). -/
theorem toNat_eq_hi8_lo8 (v : Word) : v.toNat = 256 * (hi8 v).toNat + (lo8 v).toNat := by
  simp only [hi8, lo8, BitVec.extractLsb'_toNat, Nat.shiftRight_eq_div_pow]
  omega

/-- RSV = 0 and OP at most 4 says of a command byte that its number is at most 4. -/
theorem rsv_op_legal_iff (b : Byte) :
    b.extractLsb' 3 5 = 0 ∧ (b.extractLsb' 0 3).toNat ≤ 4 ↔ b.toNat ≤ 4 := by
  rw [← BitVec.toNat_inj]
  simp only [BitVec.extractLsb'_toNat, Nat.shiftRight_eq_div_pow, BitVec.ofNat_eq_ofNat,
    BitVec.toNat_zero]
  omega

/-- A reserved command ends with IllegalCommand and writes only STATUS (spec/30_encoding.md R72). -/
theorem exec_reservedCmd (v : Byte) (s : State) :
    exec (.reservedCmd v) s = .next { s with status := 0x8F } := rfl

end Sys2Proof.Machine

namespace Sys2Proof

/-- The command words that are not reserved are the numbers up to 4 (spec/30_encoding.md R71,
R72). -/
theorem decodeCommand_ne_reserved_iff (b : Byte) :
    (∀ w, decodeCommand b ≠ .reservedCmd w) ↔ b.toNat ≤ 4 := by
  constructor
  · intro h
    by_contra hlt
    exact h b (decodeCommand_reserved b (by omega))
  · intro hle w hw
    obtain ⟨hwf, henc⟩ := decodeCommand_encode b
    have hbyte : w = b := by simpa [hw, encode] using henc
    have hge : 5 ≤ w.toNat := by simpa [hw, Instr.wf] using hwf
    rw [hbyte] at hge
    omega

end Sys2Proof

open Sys2Proof Sys2Proof.Machine

/-- Settles O1: the five words by evaluation; a byte is legal in either sense when its number is at
most 4. -/
theorem commandWordsDecode : Obligations.CommandWordsDecode := by
  refine ⟨rfl, rfl, rfl, rfl, rfl, fun b => ?_⟩
  rw [rsv_op_legal_iff, ← decodeCommand_ne_reserved_iff]
  simp only [decode, ne_eq, Except.ok.injEq]

/-- Settles O12: what the map reads at each operand's offsets, and the two bytes of a value. -/
theorem operandPairs : Obligations.OperandPairs := by
  intro s
  refine ⟨rfl, rfl, fun k => (memRead_sentReq _ s k).symm, fun n hn => ⟨input_length s n, ?_⟩,
    rfl, rfl, rfl, fun v => ⟨u16_hi8_lo8 v, toNat_eq_hi8_lo8 v⟩⟩
  intro k hk
  exact (memRead_inBuf Params.block s n k hk hn).symm

/-- Settles O31: the write is the step that runs the command word, which is reserved and ends with
IllegalCommand. -/
theorem reservedWordsEndIllegal : Obligations.ReservedWordsEndIllegal := by
  intro s v rest hv
  refine ⟨exec_reservedCmd v s, ?_⟩
  rw [step_write_cmd _ v rest rfl, decodeCommand_reserved v hv, exec_reservedCmd]
end

section
/-! The checksum as its repeated bit step, and the CRC16 command (spec/40_checksum.md R100 to
R105). -/

namespace Sys2Proof.Machine

/-- The bit steps of a byte step are `crcBit` iterated (R101). -/
theorem crcBits_eq_iterate (n : Nat) (acc : Word) : crcBits n acc = crcBit^[n] acc := by
  induction n generalizing acc with
  | zero => rfl
  | succ n ih => rw [crcBits_succ, ih, Function.iterate_succ_apply]

/-- The machine runs CRC16 with this block's parameters (R105). -/
theorem exec_crc16 (s : State) : exec .crc16 s = .next (crc16Command Params.block s) := rfl

/-- CRC_OUT holds the value written to it, high byte first (spec/20_memory.md R52). -/
@[simp] theorem State.setCrcOut_crcOut (s : State) (c : Word) : (s.setCrcOut c).crcOut = c :=
  u16_hi8_lo8 c

/-- Ending a command leaves CRC_OUT. -/
@[simp] theorem State.finish_crcOut (s : State) (code : StatusCode) :
    (s.finish code).crcOut = s.crcOut := rfl

end Sys2Proof.Machine

open Sys2Proof Sys2Proof.Machine

/-- Settles O22: the two ends of CRC16, each with its frame. -/
theorem crc16CommandEffect : Obligations.Crc16CommandEffect := by
  refine ⟨rfl, fun s => ⟨_, exec_crc16 s, ?_⟩⟩
  rw [← frameMax_block]
  rcases crc16Command_cases Params.block s with ⟨hlong, heq⟩ | ⟨hfits, heq⟩ <;> rw [heq]
  · rw [if_neg (Nat.not_le.mpr hlong)]
    exact ⟨rfl, finish_frame s .illegalCommand⟩
  · rw [if_pos hfits, State.finish_crcOut, State.setCrcOut_crcOut]
    exact ⟨rfl, rfl, setCrcOut_finish_frame s _ .ok⟩

/-- Settles O18: the fold over an appended byte, and a byte step as the bit step iterated; the seed
and the bit step are the definitions'. -/
theorem checksumDefinition : Obligations.ChecksumDefinition :=
  ⟨crc16_nil, crc16_append_one, fun _ _ => crcBits_eq_iterate 8 _, fun _ => rfl⟩
end

section
/-! The two build commands: when their argument checks pass, what each of their two ends holds, and
that they end in no other way (spec/41_frame_build.md R120 to R127). -/

namespace Sys2Proof.Machine

/-- BUILD_READ's argument checks for any parameters (R121, R124). -/
theorem readArgsOk_iff (p : Params) (a f : Byte) (n : Word) :
    readArgsOk p a f n = true ↔
      n ≠ 0 ∧ a ≠ 0 ∧ (f = 3 ∨ f = 4) ∧
        (p.strictRange = true → a.toNat ≤ 247 ∧ n.toNat ≤ 125) := by
  cases hstrict : p.strictRange <;> simp [readArgsOk, hstrict, and_assoc]

/-- BUILD_WRITE_SINGLE's argument checks for any parameters (R127, R124). -/
theorem writeArgsOk_iff (p : Params) (a : Byte) (v : Word) :
    writeArgsOk p a v = true ↔
      a ≠ 0 ∧ (p.rejectZeroWriteValue = true → v ≠ 0) ∧
        (p.strictRange = true → a.toNat ≤ 247) := by
  cases hzero : p.rejectZeroWriteValue <;> cases hstrict : p.strictRange <;>
    simp [writeArgsOk, hzero, hstrict, and_assoc]

/-- BUILD_READ's argument checks in this block, which is not strict (R7, R121). -/
theorem readArgsOk_block_iff (a f : Byte) (n : Word) :
    readArgsOk Params.block a f n = true ↔ n ≠ 0 ∧ a ≠ 0 ∧ (f = 3 ∨ f = 4) := by
  simp [readArgsOk_iff, Params.block]

/-- BUILD_WRITE_SINGLE's argument check in this block, which takes the value 0 and is not strict
(R7, R127). -/
theorem writeArgsOk_block_iff (a : Byte) (v : Word) :
    writeArgsOk Params.block a v = true ↔ a ≠ 0 := by
  simp [writeArgsOk_iff, Params.block]

/-- The machine runs BUILD_READ with this block's parameters (R120). -/
theorem exec_buildRead (s : State) :
    exec .buildRead s = .next (buildReadCommand Params.block s) := rfl

/-- The machine runs BUILD_WRITE_SINGLE with this block's parameters (R126). -/
theorem exec_buildWriteSingle (s : State) :
    exec .buildWriteSingle s = .next (buildWriteSingleCommand Params.block s) := rfl

/-- Either build ends with its request frame or fails (R122, R123). -/
theorem exec_build_cases (s : State) (i : Instr) (f : Byte)
    (h : (i = .buildRead ∧ f = s.fc) ∨ (i = .buildWriteSingle ∧ f = 0x06)) :
    exec i s = .next (s.succeedBuild (requestFrame s.addr f s.start s.cnt)) ∨
      exec i s = .next s.failBuild := by
  rcases h with ⟨rfl, rfl⟩ | ⟨rfl, rfl⟩
  · rw [exec_buildRead]
    exact (buildReadCommand_cases Params.block s).imp (congrArg _ ·.2) (congrArg _ ·.2)
  · rw [exec_buildWriteSingle]
    exact (buildWriteSingleCommand_cases Params.block s).imp (congrArg _ ·.2) (congrArg _ ·.2)

/-- A build leaves its frame's checksum in CRC_OUT: the trailer is its low byte, then its high byte
(R122, spec/30_encoding.md R80). -/
theorem succeedBuild_requestFrame_crcOut (s : State) (a f : Byte) (start cnt : Word) :
    (s.succeedBuild (requestFrame a f start cnt)).crcOut =
      crc16 (requestBody a f start cnt) :=
  u16_hi8_lo8 _

/-- The effect of a build that succeeds, byte by byte (R122). -/
theorem succeedBuild_requestFrame_effect (s t : State) (a f : Byte) (start cnt : Word)
    (ht : t = s.succeedBuild (requestFrame a f start cnt)) :
    t.frameOut = [a, f, hi8 start, lo8 start, hi8 cnt, lo8 cnt, lo8 t.crcOut, hi8 t.crcOut] ∧
      t.crcOut = crc16 [a, f, hi8 start, lo8 start, hi8 cnt, lo8 cnt] ∧
      t.outLen = 8 ∧ t.status = 0x80 ∧
      keepsAllBut (fun off => atStatus off ∨ atCrcOut off ∨ atOutLen off ∨ atFrameOut off) s t := by
  subst ht
  refine ⟨?_, succeedBuild_requestFrame_crcOut s a f start cnt, rfl, rfl,
    succeedBuild_frame s _ rfl⟩
  rw [succeedBuild_frameOut _ _ rfl, succeedBuild_requestFrame_crcOut, requestFrame_eq]

/-- The effect of a build that fails (R123). -/
theorem failBuild_effect (s : State) :
    s.failBuild.outLen = 0 ∧ s.failBuild.status = 0x81 ∧
      keepsAllBut (fun off => atStatus off ∨ atOutLen off) s s.failBuild :=
  ⟨rfl, rfl, failBuild_frame s⟩

/-- A build that succeeds is told from one that fails by STATUS (R122, R123). -/
theorem succeedBuild_status_ok (s : State) (frame : List Byte) :
    (s.succeedBuild frame).status = 0x80 := rfl

/-- A build that fails is told from one that succeeds by STATUS (R122, R123). -/
theorem failBuild_status_ne_ok (s : State) : s.failBuild.status ≠ 0x80 := by
  rw [State.failBuild_status, ne_eq, statusByte_eq_ok]
  decide

end Sys2Proof.Machine

open Sys2Proof Sys2Proof.Machine

/-- Settles O23: the command's two ends, told apart by the block's argument checks. -/
theorem buildReadEffect : Obligations.BuildReadEffect := by
  refine ⟨rfl, fun s => ⟨_, exec_buildRead s, ?_⟩⟩
  simp only [← readArgsOk_block_iff]
  rcases buildReadCommand_cases Params.block s with ⟨hok, heq⟩ | ⟨hbad, heq⟩
  · rw [if_pos hok]
    exact succeedBuild_requestFrame_effect s _ _ _ _ _ heq
  · rw [if_neg (by simp [hbad]), heq]
    exact failBuild_effect s

/-- Settles O24: the command's two ends, told apart by the block's argument check. -/
theorem buildWriteSingleEffect : Obligations.BuildWriteSingleEffect := by
  refine ⟨rfl, fun s => ⟨_, exec_buildWriteSingle s, ?_⟩⟩
  simp only [← writeArgsOk_block_iff s.addr s.cnt]
  rcases buildWriteSingleCommand_cases Params.block s with ⟨hok, heq⟩ | ⟨hbad, heq⟩
  · rw [if_pos hok]
    exact succeedBuild_requestFrame_effect s _ _ _ _ _ heq
  · rw [if_neg (by simp [hbad]), heq]
    exact failBuild_effect s

/-- Settles O25: the two ends of a build, which STATUS tells apart; CRC_OUT by reading the frame
back. -/
theorem buildsWriteExactlyTheirResults : Obligations.BuildsWriteExactlyTheirResults := by
  intro s i f hi
  rcases exec_build_cases s i f hi with hexec | hexec
  · refine ⟨_, hexec, ?_⟩
    rw [if_pos (succeedBuild_status_ok s _), succeedBuild_frameOut _ _ rfl]
    exact ⟨rfl, rfl, rfl, rfl, succeedBuild_requestFrame_crcOut s _ _ _ _,
      succeedBuild_frame s _ rfl⟩
  · refine ⟨_, hexec, ?_⟩
    rw [if_neg (failBuild_status_ne_ok s)]
    exact failBuild_effect s

/-- Settles O26: each command's two ends, told apart by its argument checks for any parameters. -/
theorem buildArgumentChecks : Obligations.BuildArgumentChecks := by
  intro p s
  simp only [← readArgsOk_iff, ← writeArgsOk_iff]
  constructor
  · rcases buildReadCommand_cases p s with ⟨hok, heq⟩ | ⟨hbad, heq⟩
    · rwa [if_pos hok]
    · rwa [if_neg (by simp [hbad])]
  · rcases buildWriteSingleCommand_cases p s with ⟨hok, heq⟩ | ⟨hbad, heq⟩
    · rwa [if_pos hok]
    · rwa [if_neg (by simp [hbad])]
end

section
/-! The two parse commands: the status each ends with, what each of their ends holds, and what they
leave unchanged, for any parameters (spec/42_frame_parse.md R140 to R156). -/

namespace Sys2Proof.Machine

/-- The machine runs PARSE_READ with this block's parameters (R140). -/
theorem exec_parseRead (s : State) :
    exec .parseRead s = .next (parseReadCommand Params.block s) := rfl

/-- The machine runs PARSE_WRITE_SINGLE with this block's parameters (R150). -/
theorem exec_parseWriteSingle (s : State) :
    exec .parseWriteSingle s = .next (parseWriteSingleCommand Params.block s) := rfl

/-- PARSE_READ ends with IllegalCommand when IN_LEN exceeds FRAME_MAX, and with the code of its
checks otherwise (R140). -/
theorem parseReadCommand_status (p : Params) (s : State) :
    (parseReadCommand p s).status =
      if p.frameMax < s.inLen.toNat then 0x8F
      else statusByte (checkRead p (s.input s.inLen.toNat) s.addr s.fc s.cnt.toNat) := by
  rcases parseReadCommand_cases p s with ⟨hlong, heq⟩ | ⟨hfits, -, heq⟩ | ⟨hfits, hok, heq⟩ <;>
    rw [heq]
  · rw [if_pos hlong]
    rfl
  · rw [if_neg (Nat.not_lt.mpr hfits), State.failRead_status]
  · rw [if_neg (Nat.not_lt.mpr hfits), State.succeedRead_status, hok]

/-- A PARSE_READ that does not end with Ok failed with some code (R148). -/
theorem parseReadCommand_eq_failRead_of_status_ne_ok (p : Params) (s : State)
    (h : (parseReadCommand p s).status ≠ 0x80) :
    ∃ code, parseReadCommand p s = s.failRead code := by
  rcases parseReadCommand_cases p s with ⟨-, heq⟩ | ⟨-, -, heq⟩ | ⟨-, -, heq⟩
  · exact ⟨_, heq⟩
  · exact ⟨_, heq⟩
  · rw [heq] at h
    exact absurd rfl h

/-- A PARSE_READ that ends with Ok passed every check (R140). -/
theorem parseReadCommand_eq_succeedRead_of_status_ok (p : Params) (s : State)
    (h : (parseReadCommand p s).status = 0x80) :
    s.inLen.toNat ≤ p.frameMax ∧ s.inLen.toNat = 5 + 2 * s.cnt.toNat ∧
      parseReadCommand p s =
        s.succeedRead (responseWords (s.input s.inLen.toNat) 0 s.cnt.toNat) := by
  rcases parseReadCommand_cases p s with ⟨-, heq⟩ | ⟨-, hbad, heq⟩ | ⟨hfits, hok, heq⟩
  · rw [heq, State.failRead_status, statusByte_eq_ok] at h
    exact absurd h (by decide)
  · rw [heq, State.failRead_status, statusByte_eq_ok] at h
    exact absurd h hbad
  · obtain ⟨hlen, -⟩ := (checkRead_ok_iff _ _ _ _ _).mp hok
    rw [input_length] at hlen
    exact ⟨hfits, hlen, heq⟩

/-- Word i of the response in IN_BUF, in the terms of the buffer bytes (R146). -/
theorem responseWords_input_get (s : State) (len n i : Nat) (hlen : len = 5 + 2 * n) (hi : i < n) :
    (responseWords (s.input len) 0 n)[i]'(by rwa [responseWords_length]) =
      u16 (s.bufByte (0x100 + (3 + 2 * i))) (s.bufByte (0x100 + (4 + 2 * i))) := by
  rw [responseWords_get, Nat.zero_add, byteAt_input _ _ _ (by omega),
    byteAt_input _ _ _ (by omega)]

/-- A PARSE_READ that ends with Ok writes the words of the response, WORDS_LEN = N and STATUS, and
nothing else. That N fits the byte WORDS_LEN follows from the bound on FRAME_MAX (R7, R146). -/
theorem parseReadCommand_effect_of_status_ok (p : Params) (s : State) (hp : p.frameMax ≤ 256)
    (h : (parseReadCommand p s).status = 0x80) :
    (∀ i < s.cnt.toNat, (parseReadCommand p s).wordOut i =
        u16 (s.bufByte (0x100 + (3 + 2 * i))) (s.bufByte (0x100 + (4 + 2 * i)))) ∧
      (parseReadCommand p s).wordsLen.toNat = s.cnt.toNat ∧
      keepsAllBut (fun off => atStatus off ∨ atWordsLen off ∨ atWordsOut s.cnt.toNat off) s
        (parseReadCommand p s) := by
  obtain ⟨hfits, hlen, heq⟩ := parseReadCommand_eq_succeedRead_of_status_ok p s h
  have hcnt : s.cnt.toNat < 2 ^ 8 := by omega
  have hframe := succeedRead_frame s (responseWords (s.input s.inLen.toNat) 0 s.cnt.toNat)
  rw [responseWords_length] at hframe
  rw [heq]
  refine ⟨fun i hi => ?_, ?_, hframe⟩
  · rw [succeedRead_wordOut _ _ _ (by rwa [responseWords_length]),
      responseWords_input_get s _ _ i hlen hi]
  · rw [State.succeedRead_wordsLen, responseWords_length, BitVec.toNat_ofNat,
      Nat.mod_eq_of_lt hcnt]

/-- PARSE_WRITE_SINGLE ends with IllegalCommand when IN_LEN exceeds FRAME_MAX, and with the code of
its checks otherwise; in either case it writes STATUS alone (R150). -/
theorem parseWriteSingleCommand_eq (p : Params) (s : State) :
    parseWriteSingleCommand p s =
      { s with status :=
          if p.frameMax < s.inLen.toNat then 0x8F
          else statusByte (checkWriteSingle p (s.input s.inLen.toNat) s.sentBytes) } := by
  rcases parseWriteSingleCommand_cases p s with ⟨hlong, heq⟩ | ⟨hfits, heq⟩ <;> rw [heq]
  · rw [if_pos hlong]
    rfl
  · rw [if_neg (Nat.not_lt.mpr hfits)]
    rfl

/-- PARSE_WRITE_SINGLE leaves all but STATUS (R150). -/
theorem parseWriteSingleCommand_frame (p : Params) (s : State) :
    keepsAllBut atStatus s (parseWriteSingleCommand p s) := by
  rcases parseWriteSingleCommand_cases p s with ⟨-, heq⟩ | ⟨-, heq⟩ <;> rw [heq] <;>
    exact finish_frame s _

end Sys2Proof.Machine

open Sys2Proof Sys2Proof.Machine

/-- Settles O56: the status is that of the checks, and it tells PARSE_READ's two kinds of end
apart. -/
theorem parseReadUnderEveryParameterSetting :
    Obligations.ParseReadUnderEveryParameterSetting := by
  refine ⟨rfl, exec_parseRead, fun p s st hwf hst => ?_⟩
  rw [← checkRead_status, ← parseReadCommand_status] at hst
  rw [Params.wf, Bool.and_eq_true, decide_eq_true_eq, decide_eq_true_eq] at hwf
  obtain ⟨-, hmax⟩ := hwf
  subst hst
  refine ⟨rfl, ?_⟩
  split_ifs with hok
  · exact parseReadCommand_effect_of_status_ok p s hmax hok
  · obtain ⟨code, heq⟩ := parseReadCommand_eq_failRead_of_status_ne_ok p s hok
    rw [heq]
    rfl

/-- Settles O27: the premises deny each failing check in turn, so the status is Ok. -/
theorem parseReadExtractsWords : Obligations.ParseReadExtractsWords := by
  intro s hfits hlen hcrc haddr hfc hcount
  have hok : (parseReadCommand Params.block s).status = 0x80 := by
    rw [parseReadCommand_status, checkRead_status, frameMax_block,
      if_neg (Nat.not_lt.mpr hfits), if_neg (not_not.mpr hlen), if_neg (not_not.mpr hcrc),
      if_neg (not_not.mpr haddr), if_neg (not_not.mpr hfc), if_neg (not_not.mpr hcount)]
  obtain ⟨hwords, hwordsLen, hframe⟩ :=
    parseReadCommand_effect_of_status_ok Params.block s (by decide) hok
  exact ⟨_, exec_parseRead s, hwords, hwordsLen, hok, hframe⟩

/-- Settles O28: the status of the checks with this block's parameters, and what an end other than
Ok writes. -/
theorem parseReadReportsFirstFailure : Obligations.ParseReadReportsFirstFailure := by
  intro s
  refine ⟨_, exec_parseRead s, ?_, fun hfail => ?_⟩
  · rw [parseReadCommand_status, checkRead_status]
    rfl
  · obtain ⟨code, heq⟩ := parseReadCommand_eq_failRead_of_status_ne_ok _ s hfail
    rw [heq]
    exact ⟨rfl, failRead_frame s code⟩

/-- Settles O57: the next state of PARSE_WRITE_SINGLE, its checks in the terms of the buffer
bytes. -/
theorem parseWriteSingleUnderEveryParameterSetting :
    Obligations.ParseWriteSingleUnderEveryParameterSetting := by
  refine ⟨rfl, rfl, exec_parseWriteSingle, fun p s _ => ?_⟩
  rw [parseWriteSingleCommand_eq, checkWriteSingle_status]

/-- Settles O29: the frame of PARSE_WRITE_SINGLE, and the status of its checks with this block's
parameters. -/
theorem parseWriteSingleEffect : Obligations.ParseWriteSingleEffect := by
  refine ⟨rfl, fun s => ⟨_, exec_parseWriteSingle s, parseWriteSingleCommand_frame _ s, ?_⟩⟩
  rw [parseWriteSingleCommand_eq, checkWriteSingle_status]
  rfl
end

section
/-! The two cases of IllegalCommand (spec/60_exceptions.md R173): a reserved command word, and a
command that reads IN_BUF with an IN_LEN beyond it. -/

namespace Sys2Proof.Machine

/-- CRC16 with an IN_LEN above FRAME_MAX ends with IllegalCommand and writes only STATUS (R173). -/
theorem crc16Command_of_frameMax_lt (p : Params) (s : State) (h : p.frameMax < s.inLen.toNat) :
    crc16Command p s = s.finish .illegalCommand :=
  if_pos h

/-- PARSE_READ with an IN_LEN above FRAME_MAX fails with IllegalCommand (R173). -/
theorem parseReadCommand_of_frameMax_lt (p : Params) (s : State) (h : p.frameMax < s.inLen.toNat) :
    parseReadCommand p s = s.failRead .illegalCommand :=
  if_pos h

/-- PARSE_WRITE_SINGLE with an IN_LEN above FRAME_MAX ends with IllegalCommand and writes only
STATUS (R173). -/
theorem parseWriteSingleCommand_of_frameMax_lt (p : Params) (s : State)
    (h : p.frameMax < s.inLen.toNat) :
    parseWriteSingleCommand p s = s.finish .illegalCommand :=
  if_pos h

/-- Ending with IllegalCommand writes 0x8F to STATUS and nothing else (R171). -/
theorem State.finish_illegalCommand (s : State) :
    s.finish .illegalCommand = { s with status := 0x8F } := rfl

/-- A parse that fails with IllegalCommand writes 0x8F to STATUS and 0 to WORDS_LEN (R148, R171). -/
theorem State.failRead_illegalCommand (s : State) :
    s.failRead .illegalCommand = { s with status := 0x8F, wordsLen := 0 } := rfl

/-- A write of a reserved word to CMD stores the word and ends with IllegalCommand (R72, R173). -/
theorem step_write_reservedCmd (s : State) (v : Byte) (rest : List HostAction)
    (hp : s.pending = .write 0x000 [v] :: rest) (hv : 5 ≤ v.toNat) :
    step s = .next { s with pending := rest, cmd := v, status := 0x8F } := by
  rw [step_write_cmd s v rest hp, decodeCommand_reserved v hv, exec_reservedCmd]

end Sys2Proof.Machine

open Sys2Proof Sys2Proof.Machine

/-- Settles O32: the step that writes a reserved word, and the end each command reading IN_BUF comes
to when IN_LEN exceeds this block's FRAME_MAX. -/
theorem illegalCommandCases : Obligations.IllegalCommandCases := by
  refine ⟨step_write_reservedCmd, fun s hlong => ?_⟩
  rw [← frameMax_block] at hlong
  refine ⟨?_, ?_, ?_⟩
  · rw [exec_crc16, crc16Command_of_frameMax_lt _ s hlong, State.finish_illegalCommand]
  · rw [exec_parseRead, parseReadCommand_of_frameMax_lt _ s hlong, State.failRead_illegalCommand]
  · rw [exec_parseWriteSingle, parseWriteSingleCommand_of_frameMax_lt _ s hlong,
      State.finish_illegalCommand]
end

section
/-! The decoder and the encoder against each other (spec/30_encoding.md R70 to R72, R75 to R79). -/

namespace Sys2Proof

open Sys2Proof.Machine

/-- The decoder takes a request frame by its function byte: its trailer is always right (R75, R76,
R79). -/
theorem decodeRequest_requestFrame (a f : Byte) (start cnt : Word) :
    decodeRequest (requestFrame a f start cnt) =
      if f = 3 then .ok (.readReqFc03 a start cnt)
      else if f = 4 then .ok (.readReqFc04 a start cnt)
      else if f = 6 then .ok (.writeSingleReq a start cnt)
      else .error (.requestFunction f) := by
  simp only [requestFrame_eq, decodeRequest, u16_hi8_lo8]
  exact if_neg (not_not.mpr rfl)

@[simp] theorem readRespBytes_length (a f n : Byte) (ws : List Word) (c : Word) :
    (readRespBytes a f n ws c).length = 5 + 2 * ws.length := by
  simp [readRespBytes]
  omega

@[simp] theorem writeSingleRespBytes_length (a f : Byte) (reg v c : Word) :
    (writeSingleRespBytes a f reg v c).length = 8 := rfl

/-- A frame of odd length that fits IN_BUF is no write-single response: the decoder reads it as the
words and the trailer of a read response (R77). -/
theorem decodeResponse_readRespBytes (a f n : Byte) (ws : List Word) (c : Word)
    (h : ws.length ≤ 125) :
    decodeResponse (readRespBytes a f n ws c) = .ok (.readResp a f n ws c) := by
  have hlen := readRespBytes_length a f n ws c
  have hfits : ¬ Params.block.frameMax < (readRespBytes a f n ws c).length := by
    rw [hlen, frameMax_block]
    omega
  unfold decodeResponse
  rw [if_neg hfits]
  split
  · next heq =>
    rw [heq, List.length_cons] at hlen
    simp only [List.length_cons, List.length_nil] at hlen
    omega
  · next heq =>
    obtain ⟨rfl, rfl, rfl, rfl⟩ : _ ∧ _ ∧ _ ∧ _ := by simpa [readRespBytes] using heq
    rw [splitWords_wordBytes]
  · next hshort =>
    exact absurd rfl (hshort a f n _)

/-- The decoder reads the fields of a write-single response back from its eight bytes (R78). -/
theorem decodeResponse_writeSingleRespBytes (a f : Byte) (reg value c : Word) :
    decodeResponse (writeSingleRespBytes a f reg value c) =
      .ok (.writeSingleResp a f reg value c) := by
  simp [decodeResponse, writeSingleRespBytes, requestBody, trailer, Params.block]

end Sys2Proof

open Sys2Proof Sys2Proof.Machine

/-- Settles O3: by the instruction, command words at the command port, frames by the rule of their
kind. -/
theorem decodeEncodeRoundTrip : Obligations.DecodeEncodeRoundTrip := by
  intro i hwf
  cases i with
  | crc16 => rfl
  | buildRead => rfl
  | buildWriteSingle => rfl
  | parseRead => rfl
  | parseWriteSingle => rfl
  | reservedCmd w => exact congrArg Except.ok (decodeCommand_reserved w (of_decide_eq_true hwf))
  | readReqFc03 a start cnt => exact decodeRequest_requestFrame a 0x03 start cnt
  | readReqFc04 a start cnt => exact decodeRequest_requestFrame a 0x04 start cnt
  | writeSingleReq a start v => exact decodeRequest_requestFrame a 0x06 start v
  | readResp a f n ws c => exact decodeResponse_readRespBytes a f n ws c (of_decide_eq_true hwf)
  | writeSingleResp a f reg v c => exact decodeResponse_writeSingleRespBytes a f reg v c

/-- Settles O4: by the port, from what the decoder reads there. -/
theorem encodeDecodeRoundTrip : Obligations.EncodeDecodeRoundTrip := by
  intro port bytes i h
  cases port with
  | command =>
    match bytes, h with
    | [b], h =>
      cases h
      exact decodeCommand_encode b
  | request =>
    obtain ⟨a, st, n, hi, henc⟩ := decodeRequest_cases bytes i h
    refine ⟨?_, henc⟩
    rcases hi with rfl | rfl | rfl <;> rfl
  | response =>
    obtain ⟨⟨a, f, n, ws, c, rfl, hws⟩ | ⟨a, f, reg, v, c, rfl⟩, henc⟩ :=
      decodeResponse_cases bytes i h
    · exact ⟨decide_eq_true hws, henc⟩
    · exact ⟨rfl, henc⟩

/-- Settles O2: five fixed byte sequences, by evaluating the decoder. -/
theorem specFramesDecode : Obligations.SpecFramesDecode := by
  refine ⟨?_, ?_, ?_, ?_, ?_⟩ <;> decide
end

section
/-! A frame row is the operand writes of its host statement and the command that statement ends in
(spec/30_encoding.md R84, R85; log 3, log 4). Facts about a row therefore come from the command, and
from what the operand writes leave unchanged. -/

namespace Sys2Proof.Machine

/-- The operand writes of `BUILD_READ a, f, s, n`, and the write of its command word (R84). -/
def State.setReadOperands (s : State) (a f : Byte) (start cnt : Word) : State :=
  { s with
    addr := a
    fc := f
    startHi := hi8 start
    startLo := lo8 start
    cntHi := hi8 cnt
    cntLo := lo8 cnt
    cmd := 0x01 }

/-- The operand writes of `BUILD_WRITE_SINGLE a, s, v`, and the write of its command word (R84). -/
def State.setWriteOperands (s : State) (a : Byte) (start value : Word) : State :=
  { s with
    addr := a
    startHi := hi8 start
    startLo := lo8 start
    cntHi := hi8 value
    cntLo := lo8 value
    cmd := 0x02 }

/-- The writes that place a frame in IN_BUF and IN_LEN, and the write of a parse command (R84). -/
def State.placeFrame (s : State) (frame : List Byte) (word : Byte) : State :=
  { s.placeInput frame with cmd := word }

/-- What a row writes before its command runs: nothing for a command word. -/
def State.prepare (s : State) : Instr → State
  | .readReqFc03 a start cnt => s.setReadOperands a 0x03 start cnt
  | .readReqFc04 a start cnt => s.setReadOperands a 0x04 start cnt
  | .writeSingleReq a start value => s.setWriteOperands a start value
  | .readResp a f n ws c => s.placeFrame (readRespBytes a f n ws c) 0x03
  | .writeSingleResp a f reg v c => s.placeFrame (writeSingleRespBytes a f reg v c) 0x04
  | _ => s

/-- The command a row runs: a command word itself. -/
def commandOf : Instr → Instr
  | .readReqFc03 _ _ _ => .buildRead
  | .readReqFc04 _ _ _ => .buildRead
  | .writeSingleReq _ _ _ => .buildWriteSingle
  | .readResp _ _ _ _ _ => .parseRead
  | .writeSingleResp _ _ _ _ _ => .parseWriteSingle
  | i => i

/-- A row runs its command in the state its own writes leave. -/
theorem exec_eq_exec_commandOf (i : Instr) (s : State) :
    exec i s = exec (commandOf i) (s.prepare i) := by
  cases i <;> rfl

section
variable (s : State) (a f : Byte) (start cnt : Word)

@[simp] theorem State.setReadOperands_addr : (s.setReadOperands a f start cnt).addr = a := rfl
@[simp] theorem State.setReadOperands_fc : (s.setReadOperands a f start cnt).fc = f := rfl
@[simp] theorem State.setReadOperands_start : (s.setReadOperands a f start cnt).start = start :=
  u16_hi8_lo8 start
@[simp] theorem State.setReadOperands_cnt : (s.setReadOperands a f start cnt).cnt = cnt :=
  u16_hi8_lo8 cnt

@[simp] theorem State.setWriteOperands_addr : (s.setWriteOperands a start cnt).addr = a := rfl
@[simp] theorem State.setWriteOperands_start : (s.setWriteOperands a start cnt).start = start :=
  u16_hi8_lo8 start
@[simp] theorem State.setWriteOperands_cnt : (s.setWriteOperands a start cnt).cnt = cnt :=
  u16_hi8_lo8 cnt

/-- The operand writes of a read request reach CMD, ADDR, FC, START and CNT (R84). -/
theorem setReadOperands_frame :
    keepsAllBut (fun off => atCmd off ∨ atAddrStartCnt off ∨ atFc off) s
      (s.setReadOperands a f start cnt) := by
  have hwritten : ∀ off, 0x004 ≤ off → off ≤ 0x007 →
      atCmd off ∨ atAddrStartCnt off ∨ atFc off := fun _ h h' => .inr (.inl (.inr ⟨h, h'⟩))
  exact keepsAllBut_of _ _ _ (cmd := .inl (.inl rfl)) (status := .inr rfl)
    (addr := .inl (.inr (.inl (.inl rfl)))) (fc := .inl (.inr (.inr rfl)))
    (startHi := .inl (hwritten _ (by decide) (by decide)))
    (startLo := .inl (hwritten _ (by decide) (by decide)))
    (cntHi := .inl (hwritten _ (by decide) (by decide)))
    (cntLo := .inl (hwritten _ (by decide) (by decide)))
    (inLenHi := .inr rfl) (inLenLo := .inr rfl) (crcOutHi := .inr rfl) (crcOutLo := .inr rfl)
    (outLen := .inr rfl) (wordsLen := .inr rfl) (sentReq := rfl) (mem := fun _ _ _ => rfl)
    (draws := rfl) (readData := rfl) (pending := rfl)

/-- The operand writes of a write request reach CMD, ADDR, START and CNT, not FC (R84). -/
theorem setWriteOperands_frame :
    keepsAllBut (fun off => atCmd off ∨ atAddrStartCnt off) s (s.setWriteOperands a start cnt) := by
  have hwritten : ∀ off, 0x004 ≤ off → off ≤ 0x007 → atCmd off ∨ atAddrStartCnt off :=
    fun _ h h' => .inr (.inr ⟨h, h'⟩)
  exact keepsAllBut_of _ _ _ (cmd := .inl (.inl rfl)) (status := .inr rfl)
    (addr := .inl (.inr (.inl rfl))) (fc := .inr rfl)
    (startHi := .inl (hwritten _ (by decide) (by decide)))
    (startLo := .inl (hwritten _ (by decide) (by decide)))
    (cntHi := .inl (hwritten _ (by decide) (by decide)))
    (cntLo := .inl (hwritten _ (by decide) (by decide)))
    (inLenHi := .inr rfl) (inLenLo := .inr rfl) (crcOutHi := .inr rfl) (crcOutLo := .inr rfl)
    (outLen := .inr rfl) (wordsLen := .inr rfl) (sentReq := rfl) (mem := fun _ _ _ => rfl)
    (draws := rfl) (readData := rfl) (pending := rfl)

end

section
variable (s : State) (frame : List Byte) (word : Byte)

@[simp] theorem State.placeFrame_sentBytes :
    (s.placeFrame frame word).sentBytes = s.sentBytes := rfl

/-- A frame that fits IN_BUF is its own length (R84). -/
theorem placeFrame_inLen_toNat (h : frame.length ≤ 256) :
    (s.placeFrame frame word).inLen.toNat = frame.length := by
  have hlen : (s.placeFrame frame word).inLen = BitVec.ofNat 16 frame.length :=
    placeInput_inLen s frame
  rw [hlen, BitVec.toNat_ofNat, Nat.mod_eq_of_lt (by omega)]

/-- A frame that fits IN_BUF is read back from it (R84). -/
theorem placeFrame_input (h : frame.length ≤ 256) :
    (s.placeFrame frame word).input frame.length = frame :=
  input_of_placed s _ frame h rfl

/-- The writes that place a frame reach CMD, IN_LEN and the frame's bytes of IN_BUF (R84). -/
theorem placeFrame_frame :
    keepsAllBut (fun off => atCmd off ∨ atInLen off ∨ atInBuf frame.length off) s
      (s.placeFrame frame word) := by
  obtain ⟨hread, hhost⟩ := placeInput_frame s frame
  refine ⟨fun off hoff => ?_, hhost⟩
  have hcmd : off ≠ 0x000 := fun h => hoff (.inl h)
  rw [← hread off fun h => hoff (.inr h)]
  exact (memStore_frame (s.placeInput frame) 0x000 word).1 off hcmd

end

end Sys2Proof.Machine
end

section
/-! What each command and each row writes at most, and which codes it can end with (spec/10_state.md
R40, spec/60_exceptions.md R172). -/

namespace Sys2Proof.Machine

/-- A build's results (R40). -/
def atBuildResults (off : Nat) : Prop :=
  atStatus off ∨ atCrcOut off ∨ atOutLen off ∨ atFrameOut off

/-- PARSE_READ's results: the words are at most WORDS_MAX (R40, spec/00_scope.md R8). -/
def atReadResults (off : Nat) : Prop := atStatus off ∨ atWordsLen off ∨ atWordsOut 125 off

/-- The offsets a row's own writes reach before its command runs (spec/30_encoding.md R84). -/
def operandsOf : Instr → Nat → Prop
  | .readReqFc03 _ _ _, off => atCmd off ∨ atAddrStartCnt off ∨ atFc off
  | .readReqFc04 _ _ _, off => atCmd off ∨ atAddrStartCnt off ∨ atFc off
  | .writeSingleReq _ _ _, off => atCmd off ∨ atAddrStartCnt off
  | .readResp _ _ _ ws _, off => atCmd off ∨ atInLen off ∨ atInBuf (5 + 2 * ws.length) off
  | .writeSingleResp _ _ _ _ _, off => atCmd off ∨ atInLen off ∨ atInBuf 8 off
  | _, _ => False

/-- The offsets an instruction's command may write (R40). -/
def resultsOf : Instr → Nat → Prop
  | .crc16, off => atStatus off ∨ atCrcOut off
  | .buildRead, off => atBuildResults off
  | .buildWriteSingle, off => atBuildResults off
  | .parseRead, off => atReadResults off
  | .parseWriteSingle, off => atStatus off
  | .reservedCmd _, off => atStatus off
  | .readReqFc03 _ _ _, off => atBuildResults off
  | .readReqFc04 _ _ _, off => atBuildResults off
  | .writeSingleReq _ _ _, off => atBuildResults off
  | .readResp _ _ _ _ _, off => atReadResults off
  | .writeSingleResp _ _ _ _ _, off => atStatus off

/-- CRC16 writes STATUS and, when it ends with Ok, CRC_OUT (R40). -/
theorem crc16Command_frame (p : Params) (s : State) :
    keepsAllBut (fun off => atStatus off ∨ ((crc16Command p s).status = 0x80 ∧ atCrcOut off)) s
      (crc16Command p s) := by
  rcases crc16Command_cases p s with ⟨-, heq⟩ | ⟨-, heq⟩ <;> rw [heq]
  · exact keepsAllBut_mono _ _ _ _ (finish_frame s _) fun _ => .inl
  · exact keepsAllBut_mono _ _ _ _ (setCrcOut_finish_frame s _ _) fun _ => .imp_right (⟨rfl, ·⟩)

/-- A build writes STATUS, OUT_LEN and, when it ends with Ok, CRC_OUT and FRAME_OUT (R40). -/
theorem build_frame (s t : State) (a f : Byte) (start cnt : Word)
    (h : t = s.succeedBuild (requestFrame a f start cnt) ∨ t = s.failBuild) :
    keepsAllBut (fun off => atStatus off ∨ atOutLen off ∨
      (t.status = 0x80 ∧ (atCrcOut off ∨ atFrameOut off))) s t := by
  rcases h with rfl | rfl
  · refine keepsAllBut_mono _ _ _ _ (succeedBuild_frame s _ rfl) fun off => ?_
    rintro (hst | hcrc | hlen | hfr)
    · exact .inl hst
    · exact .inr (.inr ⟨rfl, .inl hcrc⟩)
    · exact .inr (.inl hlen)
    · exact .inr (.inr ⟨rfl, .inr hfr⟩)
  · exact keepsAllBut_mono _ _ _ _ (failBuild_frame s) fun _ => .imp_right .inl

/-- BUILD_READ ends as a build does (R122, R123). -/
theorem buildReadCommand_ends (p : Params) (s : State) :
    buildReadCommand p s = s.succeedBuild (requestFrame s.addr s.fc s.start s.cnt) ∨
      buildReadCommand p s = s.failBuild :=
  (buildReadCommand_cases p s).imp And.right And.right

/-- BUILD_WRITE_SINGLE ends as a build does (R122, R123). -/
theorem buildWriteSingleCommand_ends (p : Params) (s : State) :
    buildWriteSingleCommand p s = s.succeedBuild (requestFrame s.addr 0x06 s.start s.cnt) ∨
      buildWriteSingleCommand p s = s.failBuild :=
  (buildWriteSingleCommand_cases p s).imp And.right And.right

/-- PARSE_READ writes STATUS, WORDS_LEN and, when it ends with Ok, the words WORDS_LEN counts
(R40). -/
theorem parseReadCommand_frame (p : Params) (s : State) (hp : p.frameMax ≤ 256) :
    keepsAllBut (fun off => atStatus off ∨ atWordsLen off ∨
      ((parseReadCommand p s).status = 0x80 ∧ atWordsOut (parseReadCommand p s).wordsLen.toNat off))
      s (parseReadCommand p s) := by
  by_cases hok : (parseReadCommand p s).status = 0x80
  · obtain ⟨-, hlen, hframe⟩ := parseReadCommand_effect_of_status_ok p s hp hok
    rw [hlen]
    exact keepsAllBut_mono _ _ _ _ hframe fun _ => .imp_right (.imp_right (⟨hok, ·⟩))
  · obtain ⟨code, heq⟩ := parseReadCommand_eq_failRead_of_status_ne_ok p s hok
    rw [heq]
    exact keepsAllBut_mono _ _ _ _ (failRead_frame s code) fun _ => .imp_right .inl

/-- WORDS_LEN is at most WORDS_MAX after PARSE_READ (spec/10_state.md R32, spec/00_scope.md R8). -/
theorem parseReadCommand_wordsLen_le (s : State) :
    (parseReadCommand Params.block s).wordsLen.toNat ≤ 125 := by
  by_cases hok : (parseReadCommand Params.block s).status = 0x80
  · obtain ⟨hfits, hlen, -⟩ := parseReadCommand_eq_succeedRead_of_status_ok _ s hok
    obtain ⟨-, hwords, -⟩ := parseReadCommand_effect_of_status_ok _ s (by decide) hok
    rw [frameMax_block] at hfits
    omega
  · obtain ⟨code, heq⟩ := parseReadCommand_eq_failRead_of_status_ne_ok _ s hok
    rw [heq, State.failRead_wordsLen]
    decide

/-- A build's results are within what it may write. -/
theorem build_writes (s t : State) (a f : Byte) (start cnt : Word)
    (h : t = s.succeedBuild (requestFrame a f start cnt) ∨ t = s.failBuild) :
    keepsAllBut atBuildResults s t := by
  refine keepsAllBut_mono _ _ _ _ (build_frame s t a f start cnt h) fun off => ?_
  rintro (hst | hlen | ⟨-, hcrc | hframe⟩)
  · exact .inl hst
  · exact .inr (.inr (.inl hlen))
  · exact .inr (.inl hcrc)
  · exact .inr (.inr (.inr hframe))

/-- PARSE_READ's results are within what it may write. -/
theorem parseReadCommand_writes (s : State) :
    keepsAllBut atReadResults s (parseReadCommand Params.block s) := by
  have hle := parseReadCommand_wordsLen_le s
  refine keepsAllBut_mono _ _ _ _ (parseReadCommand_frame _ s (by decide)) fun off => ?_
  rintro (hst | hlen | ⟨-, hlow, hhigh⟩)
  · exact .inl hst
  · exact .inr (.inl hlen)
  · exact .inr (.inr ⟨hlow, by omega⟩)

/-- A row's own writes reach its operands alone (spec/30_encoding.md R84). -/
theorem prepare_frame (i : Instr) (s : State) : keepsAllBut (operandsOf i) s (s.prepare i) := by
  cases i with
  | readReqFc03 a start cnt => exact setReadOperands_frame s a 0x03 start cnt
  | readReqFc04 a start cnt => exact setReadOperands_frame s a 0x04 start cnt
  | writeSingleReq a start v => exact setWriteOperands_frame s a start v
  | readResp a f n ws c =>
    have hplaced := placeFrame_frame s (readRespBytes a f n ws c) 0x03
    rw [readRespBytes_length] at hplaced
    exact hplaced
  | writeSingleResp a f reg v c =>
    exact placeFrame_frame s (writeSingleRespBytes a f reg v c) 0x04
  | crc16 | buildRead | buildWriteSingle | parseRead | parseWriteSingle | reservedCmd _ =>
    exact ⟨fun _ _ => rfl, rfl, rfl, rfl⟩

/-- An instruction's command writes its results alone (R40). -/
theorem exec_commandOf_frame (i : Instr) (s t : State) (h : exec (commandOf i) s = .next t) :
    keepsAllBut (resultsOf i) s t := by
  cases i with
  | crc16 =>
    cases h
    exact keepsAllBut_mono _ _ _ _ (crc16Command_frame _ s) fun _ => .imp_right And.right
  | buildRead | readReqFc03 _ _ _ | readReqFc04 _ _ _ =>
    cases h
    exact build_writes s _ _ _ _ _ (buildReadCommand_ends _ s)
  | buildWriteSingle | writeSingleReq _ _ _ =>
    cases h
    exact build_writes s _ _ _ _ _ (buildWriteSingleCommand_ends _ s)
  | parseRead | readResp _ _ _ _ _ =>
    cases h
    exact parseReadCommand_writes s
  | parseWriteSingle | writeSingleResp _ _ _ _ _ =>
    cases h
    exact parseWriteSingleCommand_frame _ s
  | reservedCmd w =>
    cases h
    exact finish_frame s _

/-- Two frames compose to any frame that holds both. -/
theorem keepsAllBut_trans_mono (w w' w'' : Nat → Prop) (s t u : State) (h : keepsAllBut w s t)
    (h' : keepsAllBut w' t u) (hw : ∀ off, w off ∨ w' off → w'' off) : keepsAllBut w'' s u :=
  keepsAllBut_mono _ _ _ _ (keepsAllBut_trans _ _ _ _ _ h h') hw

/-- An instruction writes its operands and its results, and nothing else. -/
theorem exec_frame (i : Instr) (s t : State) (h : exec i s = .next t) :
    keepsAllBut (fun off => operandsOf i off ∨ resultsOf i off) s t := by
  rw [exec_eq_exec_commandOf] at h
  exact keepsAllBut_trans _ _ _ _ _ (prepare_frame i s) (exec_commandOf_frame i _ t h)

/-- An instruction leaves the host's list of accesses. -/
theorem exec_pending (i : Instr) (s t : State) (h : exec i s = .next t) :
    t.pending = s.pending :=
  (exec_frame i s t h).2.2.2

end Sys2Proof.Machine
end

section
/-! The codes each instruction ends with (spec/60_exceptions.md R171, R172). -/

namespace Sys2Proof.Machine

/-- The three fields of a status byte (spec/10_state.md R29, spec/60_exceptions.md R171). -/
theorem statusByte_fields (code : StatusCode) :
    (statusByte code).getLsbD 7 = true ∧ (statusByte code).extractLsb' 4 3 = 0 ∧
      (statusByte code).extractLsb' 0 4 = code.number := by
  cases code <;> decide

/-- PARSE_READ's checks answer a code of its row of R172. -/
theorem checkRead_mem_codes (r : List Byte) (ea ef : Byte) (n : Nat) :
    checkRead Params.block r ea ef n ∈ codesOf .parseRead := by
  unfold checkRead
  split_ifs <;> decide

/-- PARSE_WRITE_SINGLE's checks answer a code of its row of R172. -/
theorem checkWriteSingle_mem_codes (r q : List Byte) :
    checkWriteSingle Params.block r q ∈ codesOf .parseWriteSingle := by
  unfold checkWriteSingle
  split_ifs <;> decide

/-- A build ends with Ok or InvalidArgument (R122, R123). -/
theorem build_status (s t : State) (frame : List Byte)
    (h : t = s.succeedBuild frame ∨ t = s.failBuild) :
    ∃ code ∈ codesOf .buildRead, t.status = statusByte code := by
  rcases h with rfl | rfl
  · exact ⟨.ok, by decide, rfl⟩
  · exact ⟨.invalidArgument, by decide, rfl⟩

theorem crc16Command_status (s : State) :
    ∃ code ∈ codesOf .crc16, (crc16Command Params.block s).status = statusByte code := by
  rcases crc16Command_cases Params.block s with ⟨-, heq⟩ | ⟨-, heq⟩ <;> rw [heq]
  · exact ⟨.illegalCommand, by decide, rfl⟩
  · exact ⟨.ok, by decide, rfl⟩

theorem parseReadCommand_status_code (s : State) :
    ∃ code ∈ codesOf .parseRead, (parseReadCommand Params.block s).status = statusByte code := by
  rcases parseReadCommand_cases Params.block s with ⟨-, heq⟩ | ⟨-, -, heq⟩ | ⟨-, -, heq⟩ <;>
    rw [heq]
  · exact ⟨.illegalCommand, by decide, rfl⟩
  · exact ⟨_, checkRead_mem_codes _ _ _ _, rfl⟩
  · exact ⟨.ok, by decide, rfl⟩

theorem parseWriteSingleCommand_status_code (s : State) :
    ∃ code ∈ codesOf .parseWriteSingle,
      (parseWriteSingleCommand Params.block s).status = statusByte code := by
  rcases parseWriteSingleCommand_cases Params.block s with ⟨-, heq⟩ | ⟨-, heq⟩ <;> rw [heq]
  · exact ⟨.illegalCommand, by decide, rfl⟩
  · exact ⟨_, checkWriteSingle_mem_codes _ _, rfl⟩

/-- An instruction ends with a code of its row of R172, a frame row with one of its command's. -/
theorem exec_status (i : Instr) (s t : State) (h : exec i s = .next t) :
    ∃ code ∈ codesOf i, t.status = statusByte code := by
  rw [exec_eq_exec_commandOf] at h
  cases i <;> cases h
  case crc16 => exact crc16Command_status _
  case buildRead => exact build_status _ _ _ (buildReadCommand_ends _ _)
  case buildWriteSingle => exact build_status _ _ _ (buildWriteSingleCommand_ends _ _)
  case parseRead => exact parseReadCommand_status_code _
  case parseWriteSingle => exact parseWriteSingleCommand_status_code _
  case reservedCmd => exact ⟨.illegalCommand, List.mem_singleton_self _, rfl⟩
  case readReqFc03 => exact build_status _ _ _ (buildReadCommand_ends _ _)
  case readReqFc04 => exact build_status _ _ _ (buildReadCommand_ends _ _)
  case writeSingleReq => exact build_status _ _ _ (buildWriteSingleCommand_ends _ _)
  case readResp => exact parseReadCommand_status_code _
  case writeSingleResp => exact parseWriteSingleCommand_status_code _

end Sys2Proof.Machine

open Sys2Proof Sys2Proof.Machine

/-- Settles O13: the fields of the byte that ending a command writes, and the ten numbers. -/
theorem statusByteFields : Obligations.StatusByteFields :=
  ⟨fun _ code => statusByte_fields code, rfl⟩

/-- Settles O46: every instruction answers a next state, its status is the byte of a code of its
row, and that byte has the fields of a status byte. -/
theorem everyInstructionReportsATableCode : Obligations.EveryInstructionReportsATableCode := by
  intro i s
  obtain ⟨t, ht⟩ := exec_answers_next i s
  obtain ⟨code, hcode, hstatus⟩ := exec_status i s t ht
  obtain ⟨hdone, hrsv, -⟩ := statusByte_fields code
  rw [← hstatus] at hdone hrsv
  exact ⟨t, ht, ⟨code, hcode, hstatus⟩, hdone, hrsv⟩
end

section
/-! The invariant of the results: what it depends on, and that every way a command can end keeps it
(spec/10_state.md R29 to R35, spec/93_implementation_defined.md U4). -/

namespace Sys2Proof.Machine

theorem isBufferOffset_frameOut (k : Nat) (h : k < 8) :
    isBufferOffset (frameOutBase + k) = true := by
  simp only [isBufferOffset, Bool.or_eq_true, Bool.and_eq_true, decide_eq_true_eq]
  omega

theorem isBufferOffset_inBuf (k : Nat) (h : k < 256) : isBufferOffset (inBufBase + k) = true := by
  simp only [isBufferOffset, Bool.or_eq_true, Bool.and_eq_true, decide_eq_true_eq]
  omega

theorem isBufferOffset_wordsOut (k : Nat) (h : k < 256) :
    isBufferOffset (wordsOutBase + k) = true := by
  simp only [isBufferOffset, Bool.or_eq_true, Bool.and_eq_true, decide_eq_true_eq]
  omega

/-- OUT_LEN, the draw and the bytes of FRAME_OUT decide what is said of the built frame. -/
theorem frameInv_congr (s t : State) (h : s.frameInv) (hlen : t.outLen = s.outLen)
    (hdraws : t.draws = s.draws)
    (hmem : ∀ k < 8, Memory.lookup t.mem (frameOutBase + k) =
      Memory.lookup s.mem (frameOutBase + k)) : t.frameInv := by
  rcases h with hzero | ⟨height, hwritten, a, f, start, cnt, hframe, hargs⟩
  · exact .inl (hlen.trans hzero)
  · have hsame : t.frameOut = s.frameOut :=
      bufBytes_congr s t _ _ fun k hk => State.bufByte_congr s t _ (hmem k hk) hdraws
    refine .inr ⟨hlen.trans height, fun k hk => ?_, a, f, start, cnt, hsame.trans hframe, hargs⟩
    rw [State.written, hmem k hk]
    exact hwritten k hk

/-- WORDS_LEN and the written bytes decide what is said of the words. -/
theorem wordsInv_congr (s t : State) (h : s.wordsInv) (hlen : t.wordsLen = s.wordsLen)
    (hmem : ∀ off, s.written off → t.written off) : t.wordsInv := by
  obtain ⟨hmax, hwritten⟩ := h
  rw [← hlen] at hmax hwritten
  exact ⟨hmax, fun k hk => hmem _ (hwritten k hk)⟩

/-- What the host writes outside the results keeps the invariant: only IN_BUF can change. -/
theorem inv_of_results_kept (s t : State) (h : s.Inv) (hwf : Memory.wf t.mem)
    (hstatus : t.status = s.status) (houtLen : t.outLen = s.outLen)
    (hwordsLen : t.wordsLen = s.wordsLen) (hdraws : t.draws = s.draws)
    (hmem : ∀ off, off < inBufBase ∨ inBufBase + 256 ≤ off →
      Memory.lookup t.mem off = Memory.lookup s.mem off) : t.Inv where
  memWf := hwf
  status := by
    rw [State.statusInv, hstatus]
    exact h.status
  frame := frameInv_congr s t h.frame houtLen hdraws fun k hk =>
    hmem _ (.inl (by rw [frameOutBase_eq, inBufBase_eq]; omega))
  words := by
    obtain ⟨hmax, hwritten⟩ := h.words
    rw [← hwordsLen] at hmax hwritten
    refine ⟨hmax, fun k hk => ?_⟩
    rw [State.written, hmem _ (.inr (by rw [inBufBase_eq, wordsOutBase_eq]; omega))]
    exact hwritten k hk

theorem memStore_inv (s : State) (off : Nat) (v : Byte) (h : s.Inv) :
    (s.memStore Params.block off v).Inv := by
  obtain ⟨hstatus, -, -, houtLen, hwordsLen, hdraws, -, -⟩ := memStore_results Params.block s off v
  exact inv_of_results_kept s _ h (memStore_wf _ s off v (by decide) h.memWf) hstatus houtLen
    hwordsLen hdraws fun off' => memStore_lookup_outside _ s off off' v (by decide)

theorem placeFrame_inv (s : State) (frame : List Byte) (word : Byte) (h : s.Inv) :
    (s.placeFrame frame word).Inv := by
  have hlen : (frame.take Params.block.frameMax).length ≤ 256 := List.length_take_le _ _
  refine inv_of_results_kept s _ h ?_ rfl rfl rfl rfl fun off hoff => ?_
  · exact Memory.wf_writeBytes _ _ _ h.memWf fun k hk => isBufferOffset_inBuf k (by omega)
  · exact Memory.lookup_writeBytes_outside _ _ _ _ (by omega)

/-- A row's own writes reach no result. -/
theorem prepare_inv (i : Instr) (s : State) (h : s.Inv) : (s.prepare i).Inv := by
  cases i with
  | readReqFc03 a start cnt | readReqFc04 a start cnt | writeSingleReq a start cnt =>
    exact inv_of_results_kept s _ h h.memWf rfl rfl rfl rfl fun _ _ => rfl
  | readResp a f n ws c => exact placeFrame_inv s _ _ h
  | writeSingleResp a f reg v c => exact placeFrame_inv s _ _ h
  | crc16 | buildRead | buildWriteSingle | parseRead | parseWriteSingle | reservedCmd _ => exact h

/-! ### The ends of a command -/

theorem finish_inv (s : State) (code : StatusCode) (h : s.Inv) (hcode : code ∈ writtenCodes) :
    (s.finish code).Inv where
  memWf := h.memWf
  status := .inr ⟨code, hcode, rfl⟩
  frame := h.frame
  words := h.words

theorem setCrcOut_inv (s : State) (c : Word) (h : s.Inv) : (s.setCrcOut c).Inv :=
  inv_of_results_kept s _ h h.memWf rfl rfl rfl rfl fun _ _ => rfl

theorem failBuild_inv (s : State) (h : s.Inv) : s.failBuild.Inv where
  memWf := h.memWf
  status := .inr ⟨.invalidArgument, by decide, rfl⟩
  frame := .inl rfl
  words := h.words

/-- A frame that passed the argument checks is what OUT_LEN = 8 stands for (spec/41_frame_build.md
R121, R127). -/
theorem succeedBuild_inv (s : State) (a f : Byte) (start cnt : Word) (h : s.Inv) (ha : a ≠ 0)
    (hf : f = 6 ∨ ((f = 3 ∨ f = 4) ∧ cnt ≠ 0)) :
    (s.succeedBuild (requestFrame a f start cnt)).Inv where
  memWf := Memory.wf_writeBytes _ _ _ h.memWf isBufferOffset_frameOut
  status := .inr ⟨.ok, by decide, rfl⟩
  frame := by
    refine .inr ⟨rfl, fun k hk => ?_, a, f, start, cnt, succeedBuild_frameOut _ _ rfl, ha, hf⟩
    rw [State.written, State.succeedBuild_mem, Memory.lookup_writeBytes_inside _ _ _ _ hk]
    rfl
  words := wordsInv_congr s _ h.words rfl fun off => Memory.lookup_isSome_writeBytes _ _ off _

theorem failRead_inv (s : State) (code : StatusCode) (h : s.Inv) (hcode : code ∈ writtenCodes) :
    (s.failRead code).Inv where
  memWf := h.memWf
  status := .inr ⟨code, hcode, rfl⟩
  frame := h.frame
  words := ⟨Nat.zero_le _, fun _ hk => absurd hk (Nat.not_lt_zero _)⟩

/-- The words WORDS_LEN counts are those PARSE_READ writes (spec/42_frame_parse.md R146). -/
theorem succeedRead_inv (s : State) (ws : List Word) (h : s.Inv) (hws : ws.length ≤ 125) :
    (s.succeedRead ws).Inv where
  memWf := Memory.wf_writeBytes _ _ _ h.memWf fun k hk =>
    isBufferOffset_wordsOut k (by rw [wordBytes_length] at hk; omega)
  status := .inr ⟨.ok, by decide, rfl⟩
  frame := frameInv_congr s _ h.frame rfl rfl fun k hk =>
    Memory.lookup_writeBytes_outside _ _ _ _
      (.inl (by rw [frameOutBase_eq, wordsOutBase_eq]; omega))
  words := by
    have hlen : (s.succeedRead ws).wordsLen.toNat = ws.length := by
      rw [State.succeedRead_wordsLen, BitVec.toNat_ofNat, Nat.mod_eq_of_lt (by omega)]
    refine ⟨hlen.trans_le hws, fun k hk => ?_⟩
    rw [hlen, ← wordBytes_length] at hk
    rw [State.written, State.succeedRead_mem, Memory.lookup_writeBytes_inside _ _ _ _ hk]
    rfl

/-- The codes of every row of R172 are codes the block writes. -/
theorem codesOf_subset_writtenCodes (i : Instr) : ∀ code ∈ codesOf i, code ∈ writtenCodes := by
  cases i <;> simp [codesOf, writtenCodes]

/-! ### The commands -/

theorem crc16Command_inv (s : State) (h : s.Inv) : (crc16Command Params.block s).Inv := by
  rcases crc16Command_cases Params.block s with ⟨-, heq⟩ | ⟨-, heq⟩ <;> rw [heq]
  · exact finish_inv s _ h (by decide)
  · exact finish_inv _ _ (setCrcOut_inv s _ h) (by decide)

theorem buildReadCommand_inv (s : State) (h : s.Inv) : (buildReadCommand Params.block s).Inv := by
  rcases buildReadCommand_cases Params.block s with ⟨hok, heq⟩ | ⟨-, heq⟩ <;> rw [heq]
  · obtain ⟨hcnt, haddr, hfc⟩ := (readArgsOk_block_iff _ _ _).mp hok
    exact succeedBuild_inv s _ _ _ _ h haddr (.inr ⟨hfc, hcnt⟩)
  · exact failBuild_inv s h

theorem buildWriteSingleCommand_inv (s : State) (h : s.Inv) :
    (buildWriteSingleCommand Params.block s).Inv := by
  rcases buildWriteSingleCommand_cases Params.block s with ⟨hok, heq⟩ | ⟨-, heq⟩ <;> rw [heq]
  · exact succeedBuild_inv s _ _ _ _ h ((writeArgsOk_block_iff _ _).mp hok) (.inl rfl)
  · exact failBuild_inv s h

theorem parseReadCommand_inv (s : State) (h : s.Inv) : (parseReadCommand Params.block s).Inv := by
  rcases parseReadCommand_cases Params.block s with ⟨-, heq⟩ | ⟨-, -, heq⟩ | ⟨hfits, hok, heq⟩ <;>
    rw [heq]
  · exact failRead_inv s _ h (by decide)
  · exact failRead_inv s _ h (codesOf_subset_writtenCodes _ _ (checkRead_mem_codes _ _ _ _))
  · obtain ⟨hlen, -⟩ := (checkRead_ok_iff _ _ _ _ _).mp hok
    rw [input_length] at hlen
    rw [frameMax_block] at hfits
    exact succeedRead_inv s _ h (by rw [responseWords_length]; omega)

theorem parseWriteSingleCommand_inv (s : State) (h : s.Inv) :
    (parseWriteSingleCommand Params.block s).Inv := by
  rcases parseWriteSingleCommand_cases Params.block s with ⟨-, heq⟩ | ⟨-, heq⟩ <;> rw [heq]
  · exact finish_inv s _ h (by decide)
  · exact finish_inv s _ h (codesOf_subset_writtenCodes _ _ (checkWriteSingle_mem_codes _ _))

/-- Every instruction keeps the invariant: its own writes reach no result, and its command ends in a
way that keeps it. -/
theorem exec_inv (i : Instr) (s t : State) (h : s.Inv) (ht : exec i s = .next t) : t.Inv := by
  have hprep := prepare_inv i s h
  rw [exec_eq_exec_commandOf] at ht
  cases i <;> cases ht
  case crc16 => exact crc16Command_inv _ hprep
  case buildRead => exact buildReadCommand_inv _ hprep
  case buildWriteSingle => exact buildWriteSingleCommand_inv _ hprep
  case parseRead => exact parseReadCommand_inv _ hprep
  case parseWriteSingle => exact parseWriteSingleCommand_inv _ hprep
  case reservedCmd => exact finish_inv _ _ hprep (by decide)
  case readReqFc03 => exact buildReadCommand_inv _ hprep
  case readReqFc04 => exact buildReadCommand_inv _ hprep
  case writeSingleReq => exact buildWriteSingleCommand_inv _ hprep
  case readResp => exact parseReadCommand_inv _ hprep
  case writeSingleResp => exact parseWriteSingleCommand_inv _ hprep

/-- The registers at their reset values and no byte written meet the invariant, whatever the model's
own fields are (spec/10_state.md R41). -/
theorem reset_inv (draws : Nat) (readData : Byte) (pending : List HostAction) :
    ({ State.reset with draws, readData, pending } : State).Inv where
  memWf := ⟨.nil, fun _ hc => absurd hc List.not_mem_nil⟩
  status := .inl rfl
  frame := .inl rfl
  words := ⟨Nat.zero_le _, fun _ hk => absurd hk (Nat.not_lt_zero _)⟩

end Sys2Proof.Machine

open Sys2Proof Sys2Proof.Machine

/-- Settles O50: the reset state is one with the registers at their reset values. -/
theorem resultsInvariantAtReset : Obligations.ResultsInvariantAtReset :=
  reset_inv 0 0x00 []

/-- Settles O51: by what the step does. A store and a read touch no result, an instruction keeps the
invariant by `exec_inv`, a reset restores it. -/
theorem resultsInvariantKeptByEveryStep : Obligations.ResultsInvariantKeptByEveryStep := by
  intro s t hs hstep
  have hidle : ∀ (cmd readData : Byte) (pending : List HostAction),
      ({ s with cmd, readData, pending } : State).Inv := fun _ _ _ =>
    inv_of_results_kept s _ hs hs.memWf rfl rfl rfl rfl fun _ _ => rfl
  cases hp : s.pending with
  | nil =>
    rw [step, hp] at hstep
    cases hstep
    exact hs
  | cons a rest =>
    rcases step_next_cases s t a rest hp hstep with ⟨off, v, -, -, -, rfl⟩ | ⟨v, -, hexec⟩ |
      ⟨off, -, -, rfl⟩ | ⟨f, i, -, -, hexec⟩ | ⟨f, i, -, -, hexec⟩ | ⟨-, rfl⟩
    · exact memStore_inv _ off v (hidle _ _ _)
    · exact exec_inv _ _ t (hidle _ _ _) hexec
    · exact hidle _ _ _
    · exact exec_inv i _ t (hidle _ _ _) hexec
    · exact exec_inv i _ t (hidle _ _ _) hexec
    · exact reset_inv _ _ _
end

section
/-! The block never stops under admitted accesses (spec/20_memory.md R51, spec/60_exceptions.md
R170), and the accesses that are refused. -/

namespace Sys2Proof.Machine

/-- Every instruction answers a next state and leaves the host's list. -/
theorem exec_answers_next_pending (i : Instr) (s : State) :
    ∃ t, exec i s = .next t ∧ t.pending = s.pending := by
  obtain ⟨t, ht⟩ := exec_answers_next i s
  exact ⟨t, ht, exec_pending i s t ht⟩

/-- Bytes that decode run the instruction they decode to. -/
theorem runBytes_of_decode (port : Port) (bytes : List Byte) (i : Instr) (s : State)
    (h : decode port bytes = .ok i) : runBytes port bytes s = exec i s := by
  simp only [runBytes, h]

/-- A byte write inside the space answers a next state (R51, R55, R56). -/
theorem performWrite_inside (off : Nat) (v : Byte) (s : State) (hoff : off ≤ 0x3FF) :
    ∃ t, performWrite off [v] s = .next t ∧ t.pending = s.pending := by
  by_cases h0 : off = 0x000
  · subst h0
    exact exec_answers_next_pending (decodeCommand v) { s with cmd := v }
  · exact ⟨_, performWrite_store off v s h0 hoff, (memStore_frame s off v).2.2.2⟩

/-- A frame of the table answers a next state. -/
theorem runBytes_of_toBool (port : Port) (bytes : List Byte) (s : State)
    (h : (decode port bytes).toBool = true) :
    ∃ t, runBytes port bytes s = .next t ∧ t.pending = s.pending := by
  cases hd : decode port bytes with
  | ok i =>
    rw [runBytes_of_decode port bytes i s hd]
    exact exec_answers_next_pending i s
  | error why =>
    rw [hd] at h
    cases h

/-- An admitted access answers a next state. -/
theorem perform_of_admitted (a : HostAction) (s : State) (h : a.admitted = true) :
    ∃ t, perform a s = .next t ∧ t.pending = s.pending := by
  cases a with
  | write off bytes =>
    rw [HostAction.admitted, Bool.and_eq_true, decide_eq_true_eq, decide_eq_true_eq] at h
    obtain ⟨hwidth, hoff⟩ := h
    obtain ⟨v, rfl⟩ := List.length_eq_one_iff.mp hwidth
    exact performWrite_inside off v s hoff
  | read off n =>
    rw [HostAction.admitted, Bool.and_eq_true, decide_eq_true_eq, decide_eq_true_eq] at h
    obtain ⟨rfl, hoff⟩ := h
    exact ⟨_, performRead_inside off s hoff, rfl⟩
  | writeBack off => exact performWrite_inside off s.readData s (of_decide_eq_true h)
  | request frame => exact runBytes_of_toBool .request frame s h
  | response frame => exact runBytes_of_toBool .response frame s h
  | reset => exact ⟨_, rfl, rfl⟩

/-- With nothing for the host to do a step changes nothing (spec/70_reset_and_hazards.md R191;
log 2). -/
theorem step_idle (s : State) (h : s.pending = []) : step s = .next s := by
  rw [step, h]

/-- A step under admitted accesses answers a next state with the next access taken from the list. -/
theorem step_of_admitted (s : State) (h : s.admitted = true) :
    ∃ t, step s = .next t ∧ t.pending = s.pending.tail := by
  cases hp : s.pending with
  | nil => exact ⟨s, step_idle s hp, hp⟩
  | cons a rest =>
    rw [State.admitted, hp, List.all_cons, Bool.and_eq_true] at h
    obtain ⟨ha, -⟩ := h
    rw [step_cons s a rest hp]
    exact perform_of_admitted a { s with pending := rest } ha

/-- The accesses that remain when the next is taken are admitted. -/
theorem admitted_of_pending_tail (s t : State) (h : s.admitted = true)
    (ht : t.pending = s.pending.tail) : t.admitted = true := by
  rw [State.admitted, List.all_eq_true] at h ⊢
  rw [ht]
  exact fun a ha => h a (List.mem_of_mem_tail ha)

/-- A write of another width than one byte is refused by its width (R51). -/
theorem performWrite_wide (off : Nat) (bytes : List Byte) (s : State) (h : bytes.length ≠ 1) :
    performWrite off bytes s = .refused (.accessWidth bytes.length) := by
  match bytes, h with
  | [], _ => rfl
  | [_], h => exact absurd rfl h
  | _ :: _ :: _, _ => rfl

/-- A read of another width than one byte is refused by its width (R51). -/
theorem performRead_wide (off n : Nat) (s : State) (h : n ≠ 1) :
    performRead off n s = .refused (.accessWidth n) :=
  if_pos h

/-- A byte read beyond the space is refused by its offset (R51). -/
theorem performRead_outside (off : Nat) (s : State) (h : 0x3FF < off) :
    performRead off 1 s = .refused (.offsetOutOfSpace off) :=
  if_pos (show lastOffset < off from h)

/-- What hands bytes to the decoder: a write and a write-back to CMD, and the two frame
statements. -/
theorem instrBytes_cases (a : HostAction) (readData : Byte) (port : Port) (bytes : List Byte)
    (h : a.instrBytes readData = some (port, bytes)) :
    (∃ v, port = .command ∧ bytes = [v] ∧
      (a = .write cmdOffset [v] ∨ (a = .writeBack cmdOffset ∧ v = readData))) ∨
    (port = .request ∧ a = .request bytes) ∨ (port = .response ∧ a = .response bytes) := by
  unfold HostAction.instrBytes at h
  split at h
  · split_ifs at h with hoff
    cases h
    exact .inl ⟨_, rfl, rfl, .inl (by rw [hoff])⟩
  · cases h
  · cases h
  · split_ifs at h with hoff
    cases h
    exact .inl ⟨_, rfl, rfl, .inr ⟨by rw [hoff], rfl⟩⟩
  · cases h
    exact .inr (.inl ⟨rfl, rfl⟩)
  · cases h
    exact .inr (.inr ⟨rfl, rfl⟩)
  · cases h

/-- An access that hands bytes to the decoder runs them, a command word once it stands in CMD
(spec/20_memory.md R56). -/
theorem perform_of_instrBytes (a : HostAction) (s : State) (port : Port) (bytes : List Byte)
    (h : a.instrBytes s.readData = some (port, bytes)) :
    perform a s = runBytes port bytes
      (if port = .command then { s with cmd := byteAt bytes 0 } else s) := by
  rcases instrBytes_cases a s.readData port bytes h with
    ⟨v, rfl, rfl, rfl | ⟨rfl, rfl⟩⟩ | ⟨rfl, rfl⟩ | ⟨rfl, rfl⟩ <;> rfl

/-- A write-back steps as the byte write of what the last read returned (log 23). -/
theorem step_writeBack (s : State) (off : Nat) (rest : List HostAction)
    (hp : s.pending = .writeBack off :: rest) :
    step s = step { s with pending := .write off [s.readData] :: rest } :=
  step_cons s _ rest hp

end Sys2Proof.Machine

open Sys2Proof Sys2Proof.Machine

/-- Settles O52: an admitted access answers a next state and is the only one taken from the list. -/
theorem admittedHostNeverStopsTheBlock : Obligations.AdmittedHostNeverStopsTheBlock := by
  intro s h
  obtain ⟨t, hstep, htail⟩ := step_of_admitted s h
  exact ⟨t, hstep, admitted_of_pending_tail s t h htail⟩

/-- Settles O53: by induction on the accesses still to come, of which each step takes one. -/
theorem admittedProgramsRunToTheEnd : Obligations.AdmittedProgramsRunToTheEnd := by
  intro s h
  induction hp : s.pending generalizing s with
  | nil => exact ⟨s, rfl, hp⟩
  | cons a rest ih =>
    obtain ⟨t, hstep, htail⟩ := step_of_admitted s h
    rw [List.length_cons, run_succ _ s t hstep]
    exact ih t (admitted_of_pending_tail s t h htail) (by rw [htail, hp, List.tail_cons])

/-- Settles O5: the access runs its bytes, and they run the instruction they decode to. -/
theorem stepRunsDecodedInstruction : Obligations.StepRunsDecodedInstruction := by
  intro s a rest port bytes i hp hbytes hdecode
  rw [step_cons s a rest hp, perform_of_instrBytes a { s with pending := rest } port bytes hbytes,
    runBytes_of_decode port bytes i _ hdecode]

/-- Settles O10: one refusal for each kind of access. -/
theorem wideAndOutsideAccessesRefused : Obligations.WideAndOutsideAccessesRefused :=
  fun _ off n bytes v _ =>
    ⟨performWrite_wide off bytes _, performRead_wide off n _, performWrite_outside off v _,
      performRead_outside off _⟩

/-- Settles O15: the registers of a reset block read 0x00 and its memory is empty. -/
theorem resetEventEffect : Obligations.ResetEventEffect := by
  intro s rest hp
  exact ⟨_, step_cons s _ rest hp, memRead_reset_of_not_buffer _ _ _,
    not_written_of_mem_nil _ rfl, rfl, rfl⟩

/-- Settles O16: the step's own case for an empty list. -/
theorem idleBlockStaysPut : Obligations.IdleBlockStaysPut := step_idle

/-- Settles O54: the step is that of a byte write, whose cases are those of `hostWriteEffects`, of a
write to CMD and of a write beyond the space. -/
theorem writeBackEffects : Obligations.WriteBackEffects := by
  intro s off rest hp
  rw [step_writeBack s off rest hp]
  by_cases hout : 0x3FF < off
  · rw [if_pos hout]
    exact performWrite_outside off s.readData _ hout
  rw [if_neg hout]
  by_cases h0 : off = 0x000
  · rw [if_pos h0]
    subst h0
    exact step_write_cmd _ s.readData rest rfl
  · rw [if_neg h0]
    exact hostWriteEffects { s with pending := .write off [s.readData] :: rest } off s.readData rest
      rfl h0 (Nat.le_of_not_lt hout)
end

section
/-! What a step may write, and the claims of persistence that follow
(spec/70_reset_and_hazards.md R194, R196). -/

namespace Sys2Proof.Machine

/-- The offsets a host write stores at (spec/20_memory.md R55, spec/30_encoding.md R73). -/
def hostWritable (off : Nat) : Prop :=
  off = 0x000 ∨ (0x002 ≤ off ∧ off ≤ 0x009) ∨ (0x010 ≤ off ∧ off ≤ 0x015) ∨
    (0x100 ≤ off ∧ off ≤ 0x1FF)

/-- The offsets an access other than a reset may write: the writable one it names, and what the
instruction it hands to the decoder writes. -/
def HostAction.mayWrite (readData : Byte) (a : HostAction) (off : Nat) : Prop :=
  (hostWritable off ∧ ((∃ v, a = .write off [v]) ∨ a = .writeBack off)) ∨
  ∃ i, i.wf = true ∧ a.instrBytes readData = some (encode i) ∧
    (operandsOf i off ∨ resultsOf i off)

/-- What is the host's is no part of the register space. -/
theorem memRead_withHost (p : Params) (s : State) (readData : Byte) (pending : List HostAction)
    (off : Nat) : ({ s with readData, pending } : State).memRead p off = s.memRead p off := by
  simp only [State.memRead]
  cases regAt p off <;> rfl

/-- A store changes the offset it names, and only if that is writable (R55). -/
theorem memStore_memRead (s : State) (off o : Nat) (v : Byte) (h : ¬ (hostWritable o ∧ o = off)) :
    (s.memStore Params.block off v).memRead Params.block o = s.memRead Params.block o := by
  by_cases ho : o = off
  · subst ho
    have hro : ¬ hostWritable o := fun hw => h ⟨hw, rfl⟩
    rw [memStore_ignored]
    rw [hostWritable] at hro
    rw [frameMax_block]
    omega
  · exact (memStore_frame s off v).1 o ho

/-- An instruction the access hands to the decoder changes only what the access may write. -/
theorem exec_memRead_of_not_mayWrite (i : Instr) (s t : State) (a : HostAction) (readData : Byte)
    (off : Nat) (hwf : i.wf = true) (hbytes : a.instrBytes readData = some (encode i))
    (h : exec i s = .next t) (hoff : ¬ a.mayWrite readData off) :
    t.memRead Params.block off = s.memRead Params.block off :=
  (exec_frame i s t h).1 off fun hw => hoff (.inr ⟨i, hwf, hbytes, hw⟩)

/-- A step other than a reset changes only what its access may write. -/
theorem step_memRead_of_not_mayWrite (s t : State) (a : HostAction) (rest : List HostAction)
    (off : Nat) (hp : s.pending = a :: rest) (h : step s = .next t) (ha : a ≠ .reset)
    (hoff : ¬ a.mayWrite s.readData off) :
    t.memRead Params.block off = s.memRead Params.block off := by
  rw [← memRead_withPending Params.block s rest off]
  rcases step_next_cases s t a rest hp h with ⟨o, v, -, -, hav, rfl⟩ | ⟨v, hav, hexec⟩ |
    ⟨o, rfl, -, rfl⟩ | ⟨f, i, rfl, hdec, hexec⟩ | ⟨f, i, rfl, hdec, hexec⟩ | ⟨hreset, -⟩
  · refine memStore_memRead _ o off v fun ⟨hw, heq⟩ => hoff (.inl ⟨hw, ?_⟩)
    subst heq
    exact hav.imp (⟨v, ·⟩) And.left
  · obtain ⟨hwf, henc⟩ := decodeCommand_encode v
    have hbytes : a.instrBytes s.readData = some (encode (decodeCommand v)) := by
      rw [henc]
      rcases hav with rfl | ⟨rfl, rfl⟩ <;> rfl
    have hcmd : off ≠ 0x000 := by
      rintro rfl
      exact hoff (.inl ⟨.inl rfl, hav.imp (⟨v, ·⟩) And.left⟩)
    rw [exec_memRead_of_not_mayWrite _ _ t a s.readData off hwf hbytes hexec hoff]
    exact (memStore_frame { s with pending := rest } 0x000 v).1 off hcmd
  · rw [memRead_withPending]
    exact memRead_withHost _ _ _ _ _
  · obtain ⟨hwf, henc⟩ := encodeDecodeRoundTrip .request f i hdec
    exact exec_memRead_of_not_mayWrite i _ t _ s.readData off hwf (by rw [henc]; rfl) hexec hoff
  · obtain ⟨hwf, henc⟩ := encodeDecodeRoundTrip .response f i hdec
    exact exec_memRead_of_not_mayWrite i _ t _ s.readData off hwf (by rw [henc]; rfl) hexec hoff
  · exact absurd hreset ha

/-- Which instructions write which results (spec/10_state.md R40). -/
theorem resultsOf_cases (i : Instr) (off : Nat) (h : resultsOf i off) :
    atStatus off ∨
    (encode i = (.command, [0x00]) ∧ atCrcOut off) ∨
    ((encode i = (.command, [0x01]) ∨ encode i = (.command, [0x02]) ∨
        ∃ f, encode i = (.request, f)) ∧ (atCrcOut off ∨ atOutLen off ∨ atFrameOut off)) ∨
    ((encode i = (.command, [0x03]) ∨ ∃ f, encode i = (.response, f)) ∧
      (atWordsLen off ∨ atWordsOut 125 off)) := by
  cases i with
  | crc16 => exact h.imp_right fun hcrc => .inl ⟨rfl, hcrc⟩
  | buildRead => exact h.imp_right fun hres => .inr (.inl ⟨.inl rfl, hres⟩)
  | buildWriteSingle => exact h.imp_right fun hres => .inr (.inl ⟨.inr (.inl rfl), hres⟩)
  | readReqFc03 _ _ _ | readReqFc04 _ _ _ | writeSingleReq _ _ _ =>
    exact h.imp_right fun hres => .inr (.inl ⟨.inr (.inr ⟨_, rfl⟩), hres⟩)
  | parseRead => exact h.imp_right fun hres => .inr (.inr ⟨.inl rfl, hres⟩)
  | readResp _ _ _ _ _ => exact h.imp_right fun hres => .inr (.inr ⟨.inr ⟨_, rfl⟩, hres⟩)
  | parseWriteSingle | reservedCmd _ | writeSingleResp _ _ _ _ _ => exact .inl h

/-- An instruction's operands are registers the host could have written itself (R84). -/
theorem operandsOf_hostWritable (i : Instr) (off : Nat) (hwf : i.wf = true)
    (h : operandsOf i off) : hostWritable off := by
  cases i <;> simp only [operandsOf, atCmd, atAddrStartCnt, atFc, atInLen, atInBuf] at h
  case readResp a f n ws c =>
    have hws : ws.length ≤ 125 := of_decide_eq_true hwf
    rw [hostWritable]
    omega
  all_goals
    rw [hostWritable]
    omega

/-- Only a response frame's own writes reach IN_BUF, and they reach no further than the frame. -/
theorem operandsOf_inBuf (i : Instr) (k : Nat) (h : operandsOf i (0x100 + k)) :
    ∃ f, encode i = (.response, f) ∧ k < f.length := by
  cases i <;> simp only [operandsOf, atCmd, atAddrStartCnt, atFc, atInLen, atInBuf] at h
  case readResp a f n ws c => exact ⟨_, rfl, by rw [readRespBytes_length]; omega⟩
  case writeSingleResp a f reg v c => exact ⟨_, rfl, by rw [writeSingleRespBytes_length]; omega⟩
  all_goals omega

/-- A request frame is handed to the decoder by its own entry alone. -/
theorem eq_request_of_instrBytes (a : HostAction) (readData : Byte) (f : List Byte)
    (h : a.instrBytes readData = some (.request, f)) : a = .request f := by
  rcases instrBytes_cases a readData .request f h with ⟨_, hport, -⟩ | ⟨-, ha⟩ | ⟨hport, -⟩
  · cases hport
  · exact ha
  · cases hport

/-- A response frame is handed to the decoder by its own entry alone. -/
theorem eq_response_of_instrBytes (a : HostAction) (readData : Byte) (f : List Byte)
    (h : a.instrBytes readData = some (.response, f)) : a = .response f := by
  rcases instrBytes_cases a readData .response f h with ⟨_, hport, -⟩ | ⟨hport, -⟩ | ⟨-, ha⟩
  · cases hport
  · cases hport
  · exact ha

/-- CRC_OUT is what its two offsets read. -/
theorem crcOut_congr (s t : State)
    (h : ∀ off, atCrcOut off → t.memRead Params.block off = s.memRead Params.block off) :
    t.crcOut = s.crcOut := by
  have hhi : t.crcOutHi = s.crcOutHi := h 0x00A (.inl rfl)
  have hlo : t.crcOutLo = s.crcOutLo := h 0x00B (.inr rfl)
  rw [State.crcOut, State.crcOut, hhi, hlo]

/-- FRAME_OUT is what its eight offsets read. -/
theorem frameOut_congr (s t : State)
    (h : ∀ off, atFrameOut off → t.memRead Params.block off = s.memRead Params.block off) :
    t.frameOut = s.frameOut := by
  refine ext_byteAt _ _ rfl fun k hk => ?_
  have hk8 : k < 8 := hk
  rw [← memRead_frameOut Params.block t k hk8, ← memRead_frameOut Params.block s k hk8]
  exact h _ ⟨by omega, by omega⟩

/-- A word of WORDS_OUT is what its two offsets read. -/
theorem wordOut_congr (s t : State) (n i : Nat) (hi : i < n) (hn : n ≤ 128)
    (h : ∀ off, atWordsOut n off → t.memRead Params.block off = s.memRead Params.block off) :
    t.wordOut i = s.wordOut i := by
  obtain ⟨htHi, htLo⟩ := memRead_wordOut Params.block t i (by decide) (by omega)
  obtain ⟨hsHi, hsLo⟩ := memRead_wordOut Params.block s i (by decide) (by omega)
  rw [← u16_hi8_lo8 (t.wordOut i), ← u16_hi8_lo8 (s.wordOut i), ← htHi, ← htLo, ← hsHi, ← hsLo,
    h _ ⟨by omega, by omega⟩, h _ ⟨by omega, by omega⟩]

/-- A step that changes one of several offsets may write one of them. -/
theorem exists_mayWrite_of_changed (s t : State) (a : HostAction) (rest : List HostAction)
    (w : Nat → Prop) (hp : s.pending = a :: rest) (h : step s = .next t) (ha : a ≠ .reset)
    (hchanged : ¬ ∀ off, w off → t.memRead Params.block off = s.memRead Params.block off) :
    ∃ off, w off ∧ a.mayWrite s.readData off := by
  by_contra hnone
  exact hchanged fun off hoff =>
    step_memRead_of_not_mayWrite s t a rest off hp h ha fun hw => hnone ⟨off, hoff, hw⟩

/-- An access that may write an offset no host write stores at hands the decoder an instruction that
writes it as a result. -/
theorem exists_instr_of_mayWrite (a : HostAction) (readData : Byte) (off : Nat)
    (h : a.mayWrite readData off) (hro : ¬ hostWritable off) :
    ∃ i, a.instrBytes readData = some (encode i) ∧ resultsOf i off := by
  rcases h with ⟨hw, -⟩ | ⟨i, hwf, hbytes, hop | hres⟩
  · exact absurd hw hro
  · exact absurd (operandsOf_hostWritable i off hwf hop) hro
  · exact ⟨i, hbytes, hres⟩

/-- An access that may write CRC_OUT, FRAME_OUT or OUT_LEN is CRC16, a build or a request frame, and
CRC16 only where the offset is CRC_OUT's (spec/10_state.md R40). -/
theorem mayWrite_build_results (a : HostAction) (readData : Byte) (off : Nat)
    (h : a.mayWrite readData off) (hoff : atCrcOut off ∨ atOutLen off ∨ atFrameOut off) :
    (a.instrBytes readData = some (.command, [0x00]) ∧ atCrcOut off) ∨
      a.instrBytes readData = some (.command, [0x01]) ∨
      a.instrBytes readData = some (.command, [0x02]) ∨ ∃ f, a = .request f := by
  simp only [atCrcOut, atOutLen, atFrameOut] at hoff
  obtain ⟨i, hbytes, hres⟩ :=
    exists_instr_of_mayWrite a readData off h (by rw [hostWritable]; omega)
  rcases resultsOf_cases i off hres with hst | ⟨henc, hcrc⟩ | ⟨henc, -⟩ | ⟨-, hwords⟩
  · simp only [atStatus] at hst
    omega
  · exact .inl ⟨henc ▸ hbytes, hcrc⟩
  · rcases henc with henc | henc | ⟨f, henc⟩ <;> rw [henc] at hbytes
    · exact .inr (.inl hbytes)
    · exact .inr (.inr (.inl hbytes))
    · exact .inr (.inr (.inr ⟨f, eq_request_of_instrBytes a readData f hbytes⟩))
  · simp only [atWordsLen, atWordsOut] at hwords
    omega

/-- An access that may write WORDS_OUT or WORDS_LEN is PARSE_READ or a response frame
(spec/10_state.md R40). -/
theorem mayWrite_words (a : HostAction) (readData : Byte) (off : Nat)
    (h : a.mayWrite readData off) (hoff : atWordsLen off ∨ atWordsOut 128 off) :
    a.instrBytes readData = some (.command, [0x03]) ∨ ∃ f, a = .response f := by
  simp only [atWordsLen, atWordsOut] at hoff
  obtain ⟨i, hbytes, hres⟩ :=
    exists_instr_of_mayWrite a readData off h (by rw [hostWritable]; omega)
  rcases resultsOf_cases i off hres with hst | ⟨-, hcrc⟩ | ⟨-, hbuild⟩ | ⟨henc, -⟩
  · simp only [atStatus] at hst
    omega
  · simp only [atCrcOut] at hcrc
    omega
  · simp only [atCrcOut, atOutLen, atFrameOut] at hbuild
    omega
  · rcases henc with henc | ⟨f, henc⟩ <;> rw [henc] at hbytes
    · exact .inl hbytes
    · exact .inr ⟨f, eq_response_of_instrBytes a readData f hbytes⟩

/-- No instruction's results are in IN_BUF (spec/10_state.md R40). -/
theorem not_resultsOf_inBuf (i : Instr) (k : Nat) (hk : k < 256) : ¬ resultsOf i (0x100 + k) := by
  intro hres
  rcases resultsOf_cases i _ hres with h | ⟨-, h⟩ | ⟨-, h⟩ | ⟨-, h⟩ <;>
    simp only [atStatus, atCrcOut, atOutLen, atFrameOut, atWordsLen, atWordsOut] at h <;> omega

/-- An IN_BUF byte is what its offset reads. -/
theorem bufByte_inBuf_eq_memRead (s : State) (k : Nat) (hk : k < 256) :
    s.bufByte (0x100 + k) = s.memRead Params.block (0x100 + k) := by
  rw [memRead_inBuf Params.block s 256 k hk (by decide), byteAt_input s 256 k hk]

end Sys2Proof.Machine

open Sys2Proof Sys2Proof.Machine

/-- Settles O17: the access may not write the byte. A store and a write-back name other offsets, no
command's results are in IN_BUF, and only a response frame's own writes are, as far as it
reaches. -/
theorem inputBytesChangeOnlyByHostWrites : Obligations.InputBytesChangeOnlyByHostWrites := by
  intro s t a rest k hp hstep hk hreset hwrite hback hresponse
  rw [bufByte_inBuf_eq_memRead t k hk, bufByte_inBuf_eq_memRead s k hk]
  refine step_memRead_of_not_mayWrite s t a rest _ hp hstep hreset ?_
  rintro (⟨-, ⟨v, hv⟩ | hb⟩ | ⟨i, -, hbytes, hop | hres⟩)
  · exact hwrite [v] hv
  · exact hback hb
  · obtain ⟨f, henc, hlong⟩ := operandsOf_inBuf i k hop
    rw [henc] at hbytes
    have hshort := hresponse f (eq_response_of_instrBytes a _ f hbytes)
    omega
  · exact not_resultsOf_inBuf i k hk hres

/-- Settles O49: a result that changed is at an offset the access may write, and which accesses
those are is known. -/
theorem resultsPersist : Obligations.ResultsPersist := by
  intro s t a rest hp hstep hreset
  refine ⟨fun hcrc => ?_, fun hframe => ?_, fun hwords => ?_⟩
  · obtain ⟨off, hoff, hw⟩ := exists_mayWrite_of_changed s t a rest atCrcOut hp hstep hreset
      fun hsame => hcrc (crcOut_congr s t hsame)
    exact (mayWrite_build_results a _ off hw (.inl hoff)).imp_left And.left
  · obtain ⟨off, hoff, hw⟩ := exists_mayWrite_of_changed s t a rest
      (fun off => atOutLen off ∨ atFrameOut off) hp hstep hreset fun hsame =>
        hframe.elim (fun hne => hne (frameOut_congr s t fun off h => hsame off (.inr h)))
          fun hne => hne (hsame 0x00C (.inl rfl))
    refine (mayWrite_build_results a _ off hw (.inr hoff)).resolve_left fun ⟨_, hcrc⟩ => ?_
    simp only [atCrcOut, atOutLen, atFrameOut] at hcrc hoff
    omega
  · obtain ⟨off, hoff, hw⟩ := exists_mayWrite_of_changed s t a rest
      (fun off => atWordsLen off ∨ atWordsOut 128 off) hp hstep hreset fun hsame =>
        hwords.elim (fun hne => hne (hsame 0x00D (.inl rfl))) fun ⟨i, hi, hne⟩ =>
          hne (wordOut_congr s t 128 i hi le_rfl fun off h => hsame off (.inr h))
    exact mayWrite_words a _ off hw hoff

/-- Settles O47: each command by the frame of its end. -/
theorem commandsWriteOnlyTheirResults : Obligations.CommandsWriteOnlyTheirResults := by
  intro s t
  refine ⟨fun h => ?_, fun h => ?_, fun h => ?_, fun h => ?_, fun w h => ?_⟩
  · cases h
    exact crc16Command_frame _ s
  · rcases h with h | h <;> cases h
    · exact build_frame s _ _ _ _ _ (buildReadCommand_ends _ s)
    · exact build_frame s _ _ _ _ _ (buildWriteSingleCommand_ends _ s)
  · cases h
    exact parseReadCommand_frame _ s (by decide)
  · cases h
    exact parseWriteSingleCommand_frame _ s
  · cases h
    exact finish_frame s _
end

section
/-! The checksum of a sequence with its trailer, and of one with a bit flipped
(spec/40_checksum.md R106, R107). A bit step can be undone: bit 15 of its result is the bit it
shifted out. So two different accumulators stay different, whatever bytes follow. -/

namespace Sys2Proof.Machine

/-- Bit steps on an accumulator whose low bits are zero only shift it (R102). -/
theorem crcBits_eq_ushiftRight (n : Nat) (acc : Word)
    (h : ∀ i < n, acc.getLsbD i = false) : crcBits n acc = acc >>> n := by
  induction n generalizing acc with
  | zero => simp
  | succ n ih =>
    have hbit : crcBit acc = acc >>> 1 := by rw [crcBit, h 0 (by omega), if_neg Bool.false_ne_true]
    rw [crcBits_succ, hbit, ih _ fun i hi => ?_, ← BitVec.shiftRight_add, Nat.add_comm]
    rw [BitVec.getLsbD_ushiftRight]
    exact h (1 + i) (by omega)

/-- Folding in the low byte of the accumulator shifts its high byte down (R101). -/
theorem crcByte_lo8_self (c : Word) : crcByte c (lo8 c) = c >>> 8 := by
  rw [crcByte, crcBits_eq_ushiftRight]
  · ext i hi
    by_cases h8 : 8 + i < 16 <;> simp [lo8, h8]
  · intro i hi
    have h16 : i < 16 := by omega
    simp [lo8, hi, h16]

/-- Folding in the accumulator's only byte clears it (R101). -/
theorem crcByte_hi8_ushiftRight (c : Word) : crcByte (c >>> 8) (hi8 c) = 0 := by
  have hzero : (c >>> 8) ^^^ (hi8 c).setWidth 16 = 0 := by
    ext i hi
    by_cases h8 : i < 8
    · simp [hi8, h8]
    · simp [hi8, h8, BitVec.getLsbD_of_ge c (8 + i) (by omega)]
  rw [crcByte, hzero]
  rfl

/-- The trailer of a checksum takes it to zero (R106). -/
theorem foldl_crcByte_trailer (c : Word) : (trailer c).foldl crcByte c = 0 := by
  rw [trailer, List.foldl_cons, crcByte_lo8_self, List.foldl_cons, crcByte_hi8_ushiftRight,
    List.foldl_nil]

/-- Bit 15 after a bit step is the bit that was shifted out (R102). -/
theorem crcBit_getLsbD_15 (acc : Word) : (crcBit acc).getLsbD 15 = acc.getLsbD 0 := by
  unfold crcBit
  split
  · next h => simp [h]
  · next h => simpa using h

/-- A bit step can be undone (R102). -/
theorem crcBit_injective : Function.Injective crcBit := by
  intro x y h
  have hlow : x.getLsbD 0 = y.getLsbD 0 := by
    rw [← crcBit_getLsbD_15 x, ← crcBit_getLsbD_15 y, h]
  have hshift : x >>> 1 = y >>> 1 := by
    unfold crcBit at h
    rw [hlow] at h
    split at h
    · exact (BitVec.xor_left_inj _).mp h
    · exact h
  ext i hi
  cases i with
  | zero => exact hlow
  | succ i =>
    have hbit := congrArg (BitVec.getLsbD · i) hshift
    simpa [BitVec.getLsbD_ushiftRight, Nat.add_comm 1 i, ← BitVec.getLsbD_eq_getElem] using hbit

theorem crcBits_injective (n : Nat) : Function.Injective (crcBits n) := by
  have heq : crcBits n = crcBit^[n] := funext (crcBits_eq_iterate n)
  rw [heq]
  exact crcBit_injective.iterate n

/-- Different accumulators stay different when a byte is folded in (R101). -/
theorem crcByte_left_injective (b : Byte) : Function.Injective (crcByte · b) :=
  fun _ _ h => (BitVec.xor_left_inj _).mp (crcBits_injective 8 h)

/-- Different bytes folded into one accumulator give different accumulators (R101). -/
theorem crcByte_right_injective (acc : Word) : Function.Injective (crcByte acc) := by
  intro x y h
  have hwide : x.setWidth 16 = y.setWidth 16 := (BitVec.xor_right_inj _).mp (crcBits_injective 8 h)
  have hbyte := congrArg (BitVec.setWidth 8) hwide
  simpa using hbyte

/-- Different accumulators stay different whatever bytes follow (R100). -/
theorem foldl_crcByte_injective (s : List Byte) :
    Function.Injective fun acc => s.foldl crcByte acc := by
  induction s with
  | nil => exact fun _ _ h => h
  | cons b s ih => exact fun _ _ h => crcByte_left_injective b (ih h)

/-! ### A flipped bit -/

/-- A byte with one bit changed is another byte. -/
theorem xor_bit_ne (b : Byte) (j : Nat) (hj : j < 8) : b ^^^ (1#8 <<< j) ≠ b := by
  intro h
  have hbit := congrArg (BitVec.getLsbD · j) h
  simp [hj] at hbit

theorem flipBit_cons_low (b : Byte) (s : List Byte) (k : Nat) (hk : k < 8) :
    flipBit (b :: s) k = (b ^^^ (1#8 <<< k)) :: s := by
  simp [flipBit, Nat.div_eq_of_lt hk, Nat.mod_eq_of_lt hk]

theorem flipBit_cons_add (b : Byte) (s : List Byte) (k : Nat) :
    flipBit (b :: s) (k + 8) = b :: flipBit s k := by
  simp [flipBit]

/-- A bit of the first part is flipped in the first part. -/
theorem flipBit_append_left (s t : List Byte) (k : Nat) (hk : k < 8 * s.length) :
    flipBit (s ++ t) k = flipBit s k ++ t := by
  induction s generalizing k with
  | nil => simp at hk
  | cons b s ih =>
    rcases Nat.lt_or_ge k 8 with hlow | hhigh
    · rw [List.cons_append, flipBit_cons_low _ _ _ hlow, flipBit_cons_low _ _ _ hlow,
        List.cons_append]
    · obtain ⟨k, rfl⟩ := Nat.exists_eq_add_of_le' hhigh
      rw [List.length_cons] at hk
      rw [List.cons_append, flipBit_cons_add, flipBit_cons_add, List.cons_append,
        ih k (by omega)]

/-- A bit past the first part is flipped in the second. -/
theorem flipBit_append_right (s t : List Byte) (k : Nat) :
    flipBit (s ++ t) (8 * s.length + k) = s ++ flipBit t k := by
  induction s with
  | nil => simp
  | cons b s ih =>
    rw [List.cons_append, List.length_cons, show 8 * (s.length + 1) + k = 8 * s.length + k + 8 by
      omega, flipBit_cons_add, ih, List.cons_append]

/-- A flipped bit changes the accumulator (R107). -/
theorem foldl_crcByte_flipBit_ne (s : List Byte) (k : Nat) (hk : k < 8 * s.length) (acc : Word) :
    (flipBit s k).foldl crcByte acc ≠ s.foldl crcByte acc := by
  induction s generalizing k acc with
  | nil => simp at hk
  | cons b s ih =>
    rcases Nat.lt_or_ge k 8 with hlow | hhigh
    · rw [flipBit_cons_low _ _ _ hlow, List.foldl_cons, List.foldl_cons]
      exact fun h => xor_bit_ne b k hlow
        (crcByte_right_injective acc (foldl_crcByte_injective s h))
    · obtain ⟨k, rfl⟩ := Nat.exists_eq_add_of_le' hhigh
      rw [List.length_cons] at hk
      rw [flipBit_cons_add, List.foldl_cons, List.foldl_cons]
      exact ih k (by omega) _

/-- A trailer with one bit changed is the trailer of another value (R107). -/
theorem flipBit_trailer_ne (c : Word) (k : Nat) (hk : k < 16) :
    u16 (byteAt (flipBit (trailer c) k) 1) (byteAt (flipBit (trailer c) k) 0) ≠ c := by
  rw [ne_eq, u16_eq_iff, not_and_or, trailer]
  rcases Nat.lt_or_ge k 8 with hlow | hhigh
  · rw [flipBit_cons_low _ _ _ hlow]
    exact .inr (xor_bit_ne _ k hlow)
  · obtain ⟨k, rfl⟩ := Nat.exists_eq_add_of_le' hhigh
    rw [flipBit_cons_add, flipBit_cons_low _ _ _ (by omega)]
    exact .inl (xor_bit_ne _ k (by omega))

/-- The two bytes that end a body's trailer are read after the body. -/
theorem byteAt_append_two (s t : List Byte) :
    byteAt (s ++ t) (s.length + 1) = byteAt t 1 ∧ byteAt (s ++ t) s.length = byteAt t 0 := by
  rw [byteAt_append_right _ _ _ (by omega), byteAt_append_right _ _ _ le_rfl]
  simp

/-- CRC16 for any FRAME_MAX: what is left of the state when IN_LEN fits (R105). -/
theorem crc16Command_of_fits (p : Params) (s : State) (h : s.inLen.toNat ≤ p.frameMax) :
    crc16Command p s = (s.setCrcOut (crc16 (s.input s.inLen.toNat))).finish .ok :=
  if_neg (Nat.not_lt.mpr h)

end Sys2Proof.Machine

open Sys2Proof Sys2Proof.Machine

/-- Settles O19: the six values, by evaluation of fixed sequences. -/
theorem checksumVectors : Obligations.ChecksumVectors := by
  refine ⟨?_, ?_, ?_, ?_, ?_, ?_⟩ <;> decide

/-- Settles O20: the two bytes of the trailer shift the checksum out of the accumulator. -/
theorem trailerResidueIsZero : Obligations.TrailerResidueIsZero := by
  intro s
  rw [withTrailer, crc16_append]
  exact foldl_crcByte_trailer (crc16 s)

/-- Settles O21: a bit of the body changes its checksum and leaves the trailer, a bit of the trailer
changes the value it holds and leaves the body. -/
theorem singleBitErrorsAreDetected : Obligations.SingleBitErrorsAreDetected := by
  intro s k hk
  rcases Nat.lt_or_ge k (8 * s.length) with hbody | htrailer
  · rw [withTrailer, flipBit_append_left _ _ _ hbody, List.take_left' (flipBit_length s k),
      ← flipBit_length s k, (byteAt_append_two _ _).1, (byteAt_append_two _ _).2]
    have hvalue : u16 (byteAt (trailer (crc16 s)) 1) (byteAt (trailer (crc16 s)) 0) = crc16 s :=
      u16_hi8_lo8 _
    rw [hvalue]
    exact foldl_crcByte_flipBit_ne s k hbody _
  · obtain ⟨k, rfl⟩ := Nat.exists_eq_add_of_le htrailer
    rw [withTrailer, flipBit_append_right, List.take_left' rfl, (byteAt_append_two _ _).1,
      (byteAt_append_two _ _).2]
    exact (flipBit_trailer_ne _ k (by omega)).symm

/-- Settles O55: the two ends of CRC16 for the parameter. -/
theorem crc16UnderEveryFrameMax : Obligations.Crc16UnderEveryFrameMax := by
  refine ⟨frameMax_block, exec_crc16, fun p s _ => ?_⟩
  split_ifs with hfits
  · rw [crc16Command_of_fits p s hfits, State.finish_crcOut, State.setCrcOut_crcOut]
    exact ⟨rfl, rfl, setCrcOut_finish_frame s _ .ok⟩
  · rw [crc16Command_of_frameMax_lt p s (Nat.lt_of_not_le hfits), State.finish_illegalCommand]
end

section
/-! What the parse commands make of a frame that is given whole: of an echo, of one that is too long
or too short, of an exception response, and of one with a bit flipped (spec/42_frame_parse.md R149,
R157, R159). -/

namespace Sys2Proof.Machine

/-- PARSE_READ fails with the code of its checks when that is not Ok (R148). -/
theorem parseReadCommand_of_check_ne_ok (p : Params) (s : State) (code : StatusCode)
    (hfits : s.inLen.toNat ≤ p.frameMax)
    (hcheck : checkRead p (s.input s.inLen.toNat) s.addr s.fc s.cnt.toNat = code)
    (hcode : code ≠ .ok) : parseReadCommand p s = s.failRead code := by
  rcases parseReadCommand_cases p s with ⟨hlong, -⟩ | ⟨-, -, heq⟩ | ⟨-, hok, -⟩
  · omega
  · rw [heq, hcheck]
  · exact absurd (hcheck.symm.trans hok) hcode

/-- PARSE_WRITE_SINGLE ends with the code of its checks when IN_LEN fits (R150). -/
theorem parseWriteSingleCommand_of_fits (p : Params) (s : State)
    (hfits : s.inLen.toNat ≤ p.frameMax) :
    parseWriteSingleCommand p s =
      s.finish (checkWriteSingle p (s.input s.inLen.toNat) s.sentBytes) :=
  if_neg (Nat.not_lt.mpr hfits)

/-- The length is the first of PARSE_READ's checks (R141, R147). -/
theorem checkRead_of_length_ne (p : Params) (r : List Byte) (ea ef : Byte) (n : Nat)
    (h : r.length ≠ 5 + 2 * n) : checkRead p r ea ef n = mismatchStatus p.lengthErrorCode :=
  if_pos h

/-- The checksum is the second of PARSE_READ's checks (R142, R147). -/
theorem checkRead_of_crc_ne (p : Params) (r : List Byte) (ea ef : Byte) (n : Nat)
    (hlen : r.length = 5 + 2 * n)
    (hcrc : crc16 (r.take (r.length - 2)) ≠
      u16 (byteAt r (r.length - 1)) (byteAt r (r.length - 2))) :
    checkRead p r ea ef n = .crcMismatch := by
  rw [checkRead, if_neg (not_not.mpr hlen), if_pos hcrc]

/-- The length is the first of PARSE_WRITE_SINGLE's checks (R151, R156). -/
theorem checkWriteSingle_of_length_ne (p : Params) (r q : List Byte) (h : r.length ≠ 8) :
    checkWriteSingle p r q = mismatchStatus p.lengthErrorCode :=
  if_pos h

/-- The checksum is the second of PARSE_WRITE_SINGLE's checks (R152, R156). -/
theorem checkWriteSingle_of_crc_ne (p : Params) (r q : List Byte) (hlen : r.length = 8)
    (hcrc : crc16 (r.take 6) ≠ u16 (byteAt r 7) (byteAt r 6)) :
    checkWriteSingle p r q = .crcMismatch := by
  rw [checkWriteSingle, if_neg (not_not.mpr hlen), if_pos hcrc]

/-- PARSE_READ's length check fails alone when IN_LEN fits (R141). -/
theorem parseReadCommand_of_length_ne (s : State) (hfits : s.inLen.toNat ≤ 256)
    (hlen : s.inLen.toNat ≠ 5 + 2 * s.cnt.toNat) :
    parseReadCommand Params.block s = s.failRead .byteCountMismatch :=
  parseReadCommand_of_check_ne_ok _ s _ hfits
    (checkRead_of_length_ne _ _ _ _ _ (by rwa [input_length])) (by decide)

/-- The checks of PARSE_WRITE_SINGLE pass on the sent request with its trailer and on nothing else
(R157). -/
theorem checkWriteSingle_ok_iff_echo (p : Params) (r q : List Byte) (hq : q.length = 6) :
    checkWriteSingle p r q = .ok ↔ r = withTrailer q := by
  rw [checkWriteSingle_ok_iff]
  by_cases hr : r.length = 8
  · match q, hq, r, hr with
    | [q0, q1, q2, q3, q4, q5], _, [r0, r1, r2, r3, r4, r5, r6, r7], _ =>
      have hcrc : crc16 [r0, r1, r2, r3, r4, r5] = u16 r7 r6 ↔
          r7 = hi8 (crc16 [r0, r1, r2, r3, r4, r5]) ∧
            r6 = lo8 (crc16 [r0, r1, r2, r3, r4, r5]) := by
        rw [eq_comm, u16_eq_iff]
      simp only [List.take, List.drop, byteAt, List.getD_cons_succ, List.getD_cons_zero, hcrc,
        withTrailer, trailer, List.cons_append, List.nil_append, List.cons.injEq, and_true]
      constructor
      · rintro ⟨-, ⟨rfl, rfl⟩, rfl, rfl, rfl, rfl, rfl, rfl⟩
        exact ⟨rfl, rfl, rfl, rfl, rfl, rfl, rfl, rfl⟩
      · rintro ⟨rfl, rfl, rfl, rfl, rfl, rfl, rfl, rfl⟩
        exact ⟨rfl, ⟨rfl, rfl⟩, rfl, rfl, rfl, rfl, rfl, rfl⟩
  · constructor
    · rintro ⟨hlen, -⟩
      exact absurd hlen hr
    · rintro rfl
      rw [withTrailer_length, hq] at hr
      exact absurd rfl hr

@[simp] theorem sentBytes_length (s : State) : s.sentBytes.length = 6 := by
  rw [sentBytes_eq]
  rfl

/-- PARSE_WRITE_SINGLE ends with Ok exactly on the echo (R157). -/
theorem parseWriteSingleCommand_status_ok_iff (s : State) :
    (parseWriteSingleCommand Params.block s).status = 0x80 ↔
      s.inLen = 8 ∧ s.input 8 = withTrailer s.sentBytes := by
  have hlen : s.inLen = 8 ↔ s.inLen.toNat = 8 :=
    ⟨fun h => by rw [h]; rfl, fun h => BitVec.eq_of_toNat_eq h⟩
  have hecho := checkWriteSingle_ok_iff_echo Params.block (s.input s.inLen.toNat) s.sentBytes
    (sentBytes_length s)
  rw [hlen]
  rcases parseWriteSingleCommand_cases Params.block s with ⟨hlong, heq⟩ | ⟨-, heq⟩ <;> rw [heq]
  · rw [frameMax_block] at hlong
    constructor
    · intro hbad
      exact absurd ((statusByte_eq_ok _).mp hbad) (by decide)
    · rintro ⟨h8, -⟩
      omega
  · rw [State.finish_status, statusByte_eq_ok, hecho]
    constructor
    · intro hr
      have h8 : s.inLen.toNat = 8 := by simpa using congrArg List.length hr
      exact ⟨h8, by rwa [h8] at hr⟩
    · rintro ⟨h8, hr⟩
      rwa [h8]

/-- A function code with bit 7 set is neither 3 nor 4 (R149). -/
theorem or_0x80_ne (fc expected : Byte) (h : expected = 3 ∨ expected = 4) :
    fc ||| 0x80 ≠ expected := by
  intro heq
  have hbit := congrArg (BitVec.getLsbD · 7) heq
  rcases h with rfl | rfl <;> simp at hbit

/-- The checksum of a body with its trailer, one bit flipped, fails PARSE_READ's or
PARSE_WRITE_SINGLE's second check (spec/40_checksum.md R107). -/
theorem crc16_take_flipBit_ne (body r : List Byte) (k : Nat) (hk : k < 8 * (body.length + 2))
    (hr : r = flipBit (withTrailer body) k) :
    crc16 (r.take (r.length - 2)) ≠ u16 (byteAt r (r.length - 1)) (byteAt r (r.length - 2)) := by
  have hlen : r.length = body.length + 2 := by rw [hr, flipBit_length, withTrailer_length]
  rw [hlen, hr]
  exact singleBitErrorsAreDetected body k hk

end Sys2Proof.Machine

open Sys2Proof Sys2Proof.Machine

/-- Settles O30: the status is Ok exactly when the checks pass, which they do on the echo alone. -/
theorem parseWriteSingleOkExactlyOnEcho : Obligations.ParseWriteSingleOkExactlyOnEcho :=
  fun s => ⟨_, exec_parseWriteSingle s, parseWriteSingleCommand_status_ok_iff s⟩

/-- Settles O33: 5 + 2N exceeds 256, so an IN_LEN that fits is not that length. -/
theorem largeWordCountsNeverSucceed : Obligations.LargeWordCountsNeverSucceed := by
  intro s hcnt
  refine ⟨_, exec_parseRead s, ?_⟩
  by_cases hlong : 256 < s.inLen.toNat
  · rw [parseReadCommand_of_frameMax_lt _ s hlong, if_pos hlong]
    exact ⟨rfl, rfl⟩
  · rw [parseReadCommand_of_length_ne s (Nat.le_of_not_lt hlong) (by omega), if_neg hlong]
    exact ⟨rfl, rfl⟩

/-- Settles O34: five bytes have the length of a response without words; with N = 0 the function
check fails on bit 7, and PARSE_WRITE_SINGLE asks for eight. -/
theorem exceptionResponsesFailGenericChecks : Obligations.ExceptionResponsesFailGenericChecks := by
  intro s addr fc code hlen hin
  have h5 : s.inLen.toNat = 5 := by rw [hlen]; rfl
  refine ⟨fun hcnt => ?_, fun hcnt haddr hfc => ?_, ?_⟩
  · refine ⟨_, exec_parseRead s, ?_⟩
    rw [parseReadCommand_of_length_ne s (by omega) (by omega)]
    rfl
  · have hframe : s.input s.inLen.toNat = addr :: (fc ||| 0x80) :: code ::
        (wordBytes [] ++ trailer (crc16 [addr, fc ||| 0x80, code])) := by
      rw [h5, hin]
      rfl
    have hlong : ¬ Params.block.frameMax < s.inLen.toNat := by
      rw [frameMax_block]
      omega
    refine ⟨_, exec_parseRead s, ?_⟩
    have hwords : ¬ ([] : List Word).length ≠ (0 : Word).toNat := not_not.mpr rfl
    have hcrc : ¬ crc16 [addr, fc ||| 0x80, code] ≠
        crc16 (addr :: (fc ||| 0x80) :: code :: wordBytes []) := not_not.mpr rfl
    rw [parseReadCommand_status, if_neg hlong, hframe, checkRead_of_fields, hcnt, if_neg hwords,
      if_neg hcrc, if_neg (not_not.mpr haddr.symm), if_pos (or_0x80_ne fc s.fc hfc)]
  · refine ⟨_, exec_parseWriteSingle s, ?_⟩
    rw [parseWriteSingleCommand_of_fits _ s (by rw [frameMax_block]; omega),
      checkWriteSingle_of_length_ne _ _ _ (by rw [input_length]; omega)]
    rfl

/-- Settles O45: a response of the right length with one bit flipped fails the checksum, before any
operand is looked at. -/
theorem singleBitCorruptionYieldsCrcMismatch :
    Obligations.SingleBitCorruptionYieldsCrcMismatch := by
  refine ⟨fun s a f ws k hws hk hcnt hlen hin => ?_, fun s a f reg v k hk hlen hin => ?_⟩
  · have hbody : (a :: f :: BitVec.ofNat 8 (2 * ws.length) :: wordBytes ws).length + 2 =
        5 + 2 * ws.length := by
      simp
      omega
    have hcrc := crc16_take_flipBit_ne _ (s.input s.inLen.toNat) k (by rwa [hbody])
      (by rw [hlen, hin, readResponse])
    rw [exec_parseRead, parseReadCommand_of_check_ne_ok _ s .crcMismatch
      (by rw [frameMax_block]; omega)
      (checkRead_of_crc_ne _ _ _ _ _ (by rw [input_length, hlen, hcnt]) hcrc) (by decide)]
    rfl
  · have h8 : s.inLen.toNat = 8 := by rw [hlen]; rfl
    have hcrc := crc16_take_flipBit_ne (requestBody a f reg v) (s.input 8) k hk (by rw [hin]; rfl)
    rw [input_length] at hcrc
    rw [exec_parseWriteSingle, parseWriteSingleCommand_of_fits _ s (by rw [frameMax_block]; omega),
      h8, checkWriteSingle_of_crc_ne _ _ _ (input_length s 8) hcrc]
    rfl
end

section
/-! Two states that agree on a command's operands: the command ends alike in both
(spec/10_state.md R40). -/

namespace Sys2Proof.Machine

section
variable (s₁ s₂ : State)

/-- CRC16 ends alike where IN_LEN and the bytes it counts agree. -/
theorem crc16Command_ends_alike (hlen : s₁.inLen = s₂.inLen)
    (hin : s₁.inLen.toNat ≤ 256 → s₁.input s₁.inLen.toNat = s₂.input s₁.inLen.toNat) :
    (crc16Command Params.block s₁ = s₁.finish .illegalCommand ∧
      crc16Command Params.block s₂ = s₂.finish .illegalCommand) ∨
    ∃ c, crc16Command Params.block s₁ = (s₁.setCrcOut c).finish .ok ∧
      crc16Command Params.block s₂ = (s₂.setCrcOut c).finish .ok := by
  rcases Nat.lt_or_ge 256 s₁.inLen.toNat with hlong | hfits
  · exact .inl ⟨crc16Command_of_frameMax_lt _ _ hlong,
      crc16Command_of_frameMax_lt _ _ (by rwa [← hlen])⟩
  · refine .inr ⟨crc16 (s₁.input s₁.inLen.toNat), crc16Command_of_fits _ s₁ hfits, ?_⟩
    rw [hin hfits, hlen]
    exact crc16Command_of_fits _ s₂ (by rwa [← hlen])

/-- BUILD_READ ends alike where ADDR, FC, START and CNT agree. -/
theorem buildReadCommand_ends_alike (haddr : s₁.addr = s₂.addr) (hfc : s₁.fc = s₂.fc)
    (hstart : s₁.start = s₂.start) (hcnt : s₁.cnt = s₂.cnt) :
    (∃ a f st n, buildReadCommand Params.block s₁ = s₁.succeedBuild (requestFrame a f st n) ∧
      buildReadCommand Params.block s₂ = s₂.succeedBuild (requestFrame a f st n)) ∨
    (buildReadCommand Params.block s₁ = s₁.failBuild ∧
      buildReadCommand Params.block s₂ = s₂.failBuild) := by
  simp only [buildReadCommand, haddr, hfc, hstart, hcnt]
  split
  · exact .inl ⟨_, _, _, _, rfl, rfl⟩
  · exact .inr ⟨rfl, rfl⟩

/-- BUILD_WRITE_SINGLE ends alike where ADDR, START and CNT agree: FC is not read. -/
theorem buildWriteSingleCommand_ends_alike (haddr : s₁.addr = s₂.addr)
    (hstart : s₁.start = s₂.start) (hcnt : s₁.cnt = s₂.cnt) :
    (∃ a f st n, buildWriteSingleCommand Params.block s₁ =
        s₁.succeedBuild (requestFrame a f st n) ∧
      buildWriteSingleCommand Params.block s₂ = s₂.succeedBuild (requestFrame a f st n)) ∨
    (buildWriteSingleCommand Params.block s₁ = s₁.failBuild ∧
      buildWriteSingleCommand Params.block s₂ = s₂.failBuild) := by
  simp only [buildWriteSingleCommand, haddr, hstart, hcnt]
  split
  · exact .inl ⟨_, _, _, _, rfl, rfl⟩
  · exact .inr ⟨rfl, rfl⟩

/-- Builds that end alike have the same results. -/
theorem build_results_eq (t₁ t₂ : State)
    (h : (∃ a f st n, t₁ = s₁.succeedBuild (requestFrame a f st n) ∧
        t₂ = s₂.succeedBuild (requestFrame a f st n)) ∨ (t₁ = s₁.failBuild ∧ t₂ = s₂.failBuild)) :
    t₁.status = t₂.status ∧ t₁.outLen = t₂.outLen ∧
      (t₁.status = 0x80 → t₁.crcOut = t₂.crcOut ∧ t₁.frameOut = t₂.frameOut) := by
  rcases h with ⟨a, f, st, n, rfl, rfl⟩ | ⟨rfl, rfl⟩
  · exact ⟨rfl, rfl, fun _ => ⟨rfl, by
      rw [succeedBuild_frameOut _ _ rfl, succeedBuild_frameOut _ _ rfl]⟩⟩
  · exact ⟨rfl, rfl, fun hok => absurd hok (failBuild_status_ne_ok s₁)⟩

/-- PARSE_READ ends alike where ADDR, FC, CNT, IN_LEN and the bytes it counts agree. -/
theorem parseReadCommand_ends_alike (haddr : s₁.addr = s₂.addr) (hfc : s₁.fc = s₂.fc)
    (hcnt : s₁.cnt = s₂.cnt) (hlen : s₁.inLen = s₂.inLen)
    (hin : s₁.inLen.toNat ≤ 256 → s₁.input s₁.inLen.toNat = s₂.input s₁.inLen.toNat) :
    (∃ code, parseReadCommand Params.block s₁ = s₁.failRead code ∧
      parseReadCommand Params.block s₂ = s₂.failRead code) ∨
    ∃ ws, parseReadCommand Params.block s₁ = s₁.succeedRead ws ∧
      parseReadCommand Params.block s₂ = s₂.succeedRead ws := by
  rcases Nat.lt_or_ge 256 s₁.inLen.toNat with hlong | hfits
  · exact .inl ⟨_, parseReadCommand_of_frameMax_lt _ _ hlong,
      parseReadCommand_of_frameMax_lt _ _ (by rwa [← hlen])⟩
  · simp only [parseReadCommand, ← haddr, ← hfc, ← hcnt, ← hlen, ← hin hfits,
      if_neg (Nat.not_lt.mpr (show s₁.inLen.toNat ≤ Params.block.frameMax from hfits))]
    split
    · exact .inr ⟨_, rfl, rfl⟩
    · exact .inl ⟨_, rfl, rfl⟩

end

end Sys2Proof.Machine

open Sys2Proof Sys2Proof.Machine

/-- Settles O48: each command ends alike in both states, and what an end holds does not depend on
the state it is reached from. -/
theorem resultsDependOnlyOnOperands : Obligations.ResultsDependOnlyOnOperands := by
  intro s₁ s₂
  refine ⟨fun hlen hin => ?_, fun haddr hfc hstart hcnt => ?_, fun haddr hstart hcnt => ?_,
    fun haddr hfc hcnt hlen hin => ?_, fun hsent hlen hin => ?_⟩
  · refine ⟨_, _, exec_crc16 s₁, exec_crc16 s₂, ?_⟩
    rcases crc16Command_ends_alike s₁ s₂ hlen hin with ⟨h₁, h₂⟩ | ⟨c, h₁, h₂⟩ <;> rw [h₁, h₂]
    · exact ⟨rfl, fun hok => absurd ((statusByte_eq_ok _).mp hok) (by decide)⟩
    · exact ⟨rfl, fun _ => rfl⟩
  · exact ⟨_, _, exec_buildRead s₁, exec_buildRead s₂, build_results_eq s₁ s₂ _ _
      (buildReadCommand_ends_alike s₁ s₂ haddr hfc hstart hcnt)⟩
  · exact ⟨_, _, exec_buildWriteSingle s₁, exec_buildWriteSingle s₂, build_results_eq s₁ s₂ _ _
      (buildWriteSingleCommand_ends_alike s₁ s₂ haddr hstart hcnt)⟩
  · refine ⟨_, _, exec_parseRead s₁, exec_parseRead s₂, ?_⟩
    rcases parseReadCommand_ends_alike s₁ s₂ haddr hfc hcnt hlen hin with
      ⟨code, h₁, h₂⟩ | ⟨ws, h₁, h₂⟩ <;> rw [h₁, h₂]
    · exact ⟨rfl, rfl, fun i hi => absurd hi (Nat.not_lt_zero i)⟩
    · refine ⟨rfl, rfl, fun i hi => ?_⟩
      rw [State.succeedRead_wordsLen, BitVec.toNat_ofNat] at hi
      have hws : i < ws.length := Nat.lt_of_lt_of_le hi (Nat.mod_le _ _)
      rw [succeedRead_wordOut s₁ ws i hws, succeedRead_wordOut s₂ ws i hws]
  · have hbytes : s₁.sentBytes = s₂.sentBytes := congrArg Vector.toList hsent
    refine ⟨_, _, exec_parseWriteSingle s₁, exec_parseWriteSingle s₂, ?_⟩
    rw [parseWriteSingleCommand_eq, parseWriteSingleCommand_eq]
    dsimp only
    rw [← hlen, ← hbytes]
    split_ifs with hlong
    · rfl
    · rw [hin (Nat.le_of_not_lt hlong)]
end

section
/-! The frame rows: what a request row builds from its fields, and what a response row's frame comes
to against the operands (spec/30_encoding.md R75 to R78; log 3, log 4). -/

namespace Sys2Proof.Machine

/-- The machine runs a read request row as BUILD_READ on its fields (log 3). -/
theorem exec_readRequest (s : State) (a f : Byte) (start cnt : Word) (i : Instr)
    (h : (f = 0x03 ∧ i = .readReqFc03 a start cnt) ∨ (f = 0x04 ∧ i = .readReqFc04 a start cnt)) :
    exec i s = .next (buildReadCommand Params.block (s.setReadOperands a f start cnt)) := by
  rcases h with ⟨rfl, rfl⟩ | ⟨rfl, rfl⟩ <;> rfl

/-- The machine runs WRITE_SINGLE_REQ as BUILD_WRITE_SINGLE on its fields (log 3). -/
theorem exec_writeSingleReq (s : State) (a : Byte) (start value : Word) :
    exec (.writeSingleReq a start value) s =
      .next (buildWriteSingleCommand Params.block (s.setWriteOperands a start value)) := rfl

/-- The machine runs READ_RESP as PARSE_READ on its frame (log 4). -/
theorem exec_readResp (s : State) (a f n : Byte) (ws : List Word) (c : Word) :
    exec (.readResp a f n ws c) s =
      .next (parseReadCommand Params.block (s.placeFrame (readRespBytes a f n ws c) 0x03)) := rfl

/-- The machine runs WRITE_SINGLE_RESP as PARSE_WRITE_SINGLE on its frame (log 4). -/
theorem exec_writeSingleResp (s : State) (a f : Byte) (reg v c : Word) :
    exec (.writeSingleResp a f reg v c) s =
      .next (parseWriteSingleCommand Params.block
        (s.placeFrame (writeSingleRespBytes a f reg v c) 0x04)) := rfl

/-- A build leaves its operands and CMD (R122, R123). -/
theorem build_keeps_operands (s t : State) (frame : List Byte)
    (h : t = s.succeedBuild frame ∨ t = s.failBuild) :
    t.addr = s.addr ∧ t.fc = s.fc ∧ t.start = s.start ∧ t.cnt = s.cnt ∧ t.cmd = s.cmd := by
  rcases h with rfl | rfl <;> exact ⟨rfl, rfl, rfl, rfl, rfl⟩

/-- PARSE_READ leaves the input and CMD (R146, R148). -/
theorem parseReadCommand_keeps_input (s : State) (n : Nat) (hn : n ≤ 256) :
    (parseReadCommand Params.block s).input n = s.input n ∧
      (parseReadCommand Params.block s).inLen = s.inLen ∧
      (parseReadCommand Params.block s).cmd = s.cmd := by
  have hread := (parseReadCommand_writes s).1
  have hInLenHi := hread 0x008 (by simp [atReadResults, atStatus, atWordsLen, atWordsOut])
  have hInLenLo := hread 0x009 (by simp [atReadResults, atStatus, atWordsLen, atWordsOut])
  refine ⟨bufBytes_congr _ _ _ _ fun k hk => ?_, congrArg₂ u16 hInLenHi hInLenLo,
    hread 0x000 (by simp [atReadResults, atStatus, atWordsLen, atWordsOut])⟩
  rw [inBufBase_eq, bufByte_inBuf_eq_memRead _ k (by omega),
    bufByte_inBuf_eq_memRead _ k (by omega)]
  exact hread _ (not_resultsOf_inBuf .parseRead k (by omega))

section
variable (s : State) (a f n : Byte) (ws : List Word) (c : Word)

/-- The status of PARSE_READ on a frame in IN_BUF given by its fields (R77, R147). -/
theorem parseReadCommand_status_of_fields (hlen : s.inLen.toNat = 5 + 2 * ws.length)
    (hws : ws.length ≤ 125) (hin : s.input (5 + 2 * ws.length) = readRespBytes a f n ws c) :
    (parseReadCommand Params.block s).status =
      (if ws.length ≠ s.cnt.toNat then 0x85
       else if c ≠ crc16 (a :: f :: n :: wordBytes ws) then 0x82
       else if a ≠ s.addr then 0x83
       else if f ≠ s.fc then 0x84
       else if n.toNat ≠ 2 * ws.length then 0x85
       else 0x80) := by
  have hfits : ¬ Params.block.frameMax < s.inLen.toNat := by
    rw [frameMax_block]
    omega
  rw [parseReadCommand_status, if_neg hfits, hlen, hin, readRespBytes, checkRead_of_fields]

/-- PARSE_READ that accepts a frame given by its fields writes that frame's words (R77, R146). -/
theorem parseReadCommand_of_fields_ok (hlen : s.inLen.toNat = 5 + 2 * ws.length)
    (hin : s.input (5 + 2 * ws.length) = readRespBytes a f n ws c)
    (hok : (parseReadCommand Params.block s).status = 0x80) :
    parseReadCommand Params.block s = s.succeedRead ws := by
  obtain ⟨-, hcnt, heq⟩ := parseReadCommand_eq_succeedRead_of_status_ok _ s hok
  have hwords : s.cnt.toNat = ws.length := by omega
  rw [heq, hlen, hin, hwords, readRespBytes, responseWords_of_fields]

end

/-- WORDS_LEN counts the words PARSE_READ wrote (R146). -/
theorem succeedRead_wordsLen_toNat (s : State) (ws : List Word) (h : ws.length ≤ 125) :
    (s.succeedRead ws).wordsLen.toNat = ws.length := by
  rw [State.succeedRead_wordsLen, BitVec.toNat_ofNat, Nat.mod_eq_of_lt (by omega)]

/-- PARSE_WRITE_SINGLE's checks on a frame given by its fields (R78, R156). -/
theorem checkWriteSingle_of_fields (s : State) (a f : Byte) (reg v c : Word) :
    statusByte (checkWriteSingle Params.block (writeSingleRespBytes a f reg v c) s.sentBytes) =
      (if c ≠ crc16 [a, f, hi8 reg, lo8 reg, hi8 v, lo8 v] then 0x82
       else if a ≠ s.sentReq[0] then 0x83
       else if f ≠ s.sentReq[1] then 0x84
       else if reg ≠ u16 s.sentReq[2] s.sentReq[3] ∨ v ≠ u16 s.sentReq[4] s.sentReq[5] then 0x85
       else 0x80) := by
  have htake : (writeSingleRespBytes a f reg v c).take 6 =
      [a, f, hi8 reg, lo8 reg, hi8 v, lo8 v] := rfl
  have hcrc : u16 (byteAt (writeSingleRespBytes a f reg v c) 7)
      (byteAt (writeSingleRespBytes a f reg v c) 6) = c := u16_hi8_lo8 c
  have hbody : ([hi8 reg, lo8 reg, hi8 v, lo8 v] ≠
        [s.sentReq[2], s.sentReq[3], s.sentReq[4], s.sentReq[5]]) ↔
      reg ≠ u16 s.sentReq[2] s.sentReq[3] ∨ v ≠ u16 s.sentReq[4] s.sentReq[5] := by
    rw [← not_and_or, ne_eq, eq_comm (a := reg), eq_comm (a := v), u16_eq_iff, u16_eq_iff]
    simp only [List.cons.injEq, and_true, and_assoc, eq_comm]
  rw [checkWriteSingle, if_neg (not_not.mpr (writeSingleRespBytes_length a f reg v c)), htake, hcrc,
    sentBytes_eq]
  simp only [← hbody, ne_comm (a := c)]
  rw [apply_ite statusByte, apply_ite statusByte, apply_ite statusByte, apply_ite statusByte]
  rfl

end Sys2Proof.Machine

open Sys2Proof Sys2Proof.Machine

/-- Settles O35: the row is BUILD_READ on its fields, whose effect is known; the frame is that of
the operand writes and of the build. -/
theorem readRequestFramesBuilt : Obligations.ReadRequestFramesBuilt := by
  intro s a f st n i hi
  have hops := setReadOperands_frame s a f st n
  have hfc : f = 3 ∨ f = 4 := hi.imp And.left And.left
  have hkeep := build_keeps_operands _ _ _
    (buildReadCommand_ends Params.block (s.setReadOperands a f st n))
  obtain ⟨t, ht, heffect⟩ := buildReadEffect.2 (s.setReadOperands a f st n)
  cases ht
  simp only [State.setReadOperands_addr, State.setReadOperands_fc, State.setReadOperands_start,
    State.setReadOperands_cnt] at heffect hkeep
  obtain ⟨haddr, hf, hst, hn, hcmd⟩ := hkeep
  refine ⟨_, exec_readRequest s a f st n i hi, haddr, hf, hst, hn, hcmd, ?_⟩
  by_cases hargs : a ≠ 0 ∧ n ≠ 0
  · rw [if_pos ⟨hargs.2, hargs.1, hfc⟩] at heffect
    obtain ⟨hframe, hcrc, hlen, hok, hwritten⟩ := heffect
    rw [if_pos hargs]
    refine ⟨hframe, hcrc, hlen, hok,
      keepsAllBut_trans_mono _ _ _ _ _ _ hops hwritten fun off => ?_⟩
    grind
  · rw [if_neg fun h => hargs ⟨h.2.1, h.1⟩] at heffect
    obtain ⟨hlen, hstatus, hwritten⟩ := heffect
    rw [if_neg hargs]
    refine ⟨hlen, hstatus,
      keepsAllBut_trans_mono _ _ _ _ _ _ hops hwritten fun off => ?_⟩
    grind

/-- Settles O36: the row is BUILD_WRITE_SINGLE on its fields, whose effect is known; the frame is
that of the operand writes and of the build. -/
theorem writeSingleRequestFrameBuilt : Obligations.WriteSingleRequestFrameBuilt := by
  intro s a st v
  have hops := setWriteOperands_frame s a st v
  have hkeep := build_keeps_operands _ _ _
    (buildWriteSingleCommand_ends Params.block (s.setWriteOperands a st v))
  obtain ⟨t, ht, heffect⟩ := buildWriteSingleEffect.2 (s.setWriteOperands a st v)
  cases ht
  simp only [State.setWriteOperands_addr, State.setWriteOperands_start,
    State.setWriteOperands_cnt] at heffect hkeep
  obtain ⟨haddr, -, hst, hv, hcmd⟩ := hkeep
  refine ⟨_, exec_writeSingleReq s a st v, haddr, hst, hv, hcmd, ?_⟩
  split_ifs at heffect ⊢
  · obtain ⟨hframe, hcrc, hlen, hok, hwritten⟩ := heffect
    refine ⟨hframe, hcrc, hlen, hok,
      keepsAllBut_trans_mono _ _ _ _ _ _ hops hwritten fun off => ?_⟩
    grind
  · obtain ⟨hlen, hstatus, hwritten⟩ := heffect
    refine ⟨hlen, hstatus,
      keepsAllBut_trans_mono _ _ _ _ _ _ hops hwritten fun off => ?_⟩
    grind

/-- Settles O37: the frame is in place when PARSE_READ runs, whose checks on it are those of its
fields. -/
theorem readResponseFrameChecked : Obligations.ReadResponseFrameChecked := by
  intro s a f bc ws c hws
  have hbytes : (readRespBytes a f bc ws c).length = 5 + 2 * ws.length :=
    readRespBytes_length a f bc ws c
  have hin := placeFrame_input s (readRespBytes a f bc ws c) 0x03 (by omega)
  have hlen := placeFrame_inLen_toNat s (readRespBytes a f bc ws c) 0x03 (by omega)
  have hplaced := placeFrame_frame s (readRespBytes a f bc ws c) 0x03
  rw [hbytes] at hin hlen hplaced
  obtain ⟨hkeepIn, hkeepLen, hkeepCmd⟩ := parseReadCommand_keeps_input
    (s.placeFrame (readRespBytes a f bc ws c) 0x03) (5 + 2 * ws.length) (by omega)
  refine ⟨_, exec_readResp s a f bc ws c, hkeepIn.trans hin, by rw [hkeepLen, hlen], hkeepCmd,
    parseReadCommand_status_of_fields _ a f bc ws c hlen hws hin, ?_⟩
  split_ifs with hok
  · rw [parseReadCommand_of_fields_ok _ a f bc ws c hlen hin hok]
    refine ⟨fun i hi => succeedRead_wordOut _ ws i hi, succeedRead_wordsLen_toNat _ ws hws,
      keepsAllBut_trans_mono _ _ _ _ _ _ hplaced (succeedRead_frame _ ws) fun off => ?_⟩
    grind
  · obtain ⟨code, heq⟩ := parseReadCommand_eq_failRead_of_status_ne_ok _ _ hok
    rw [heq]
    refine ⟨rfl, keepsAllBut_trans_mono _ _ _ _ _ _ hplaced (failRead_frame _ code) fun off => ?_⟩
    grind

/-- Settles O38: the frame is in place when PARSE_WRITE_SINGLE runs, whose checks on it are those of
its fields. -/
theorem writeSingleResponseFrameChecked : Obligations.WriteSingleResponseFrameChecked := by
  intro s a f reg v c
  have hin := placeFrame_input s (writeSingleRespBytes a f reg v c) 0x04 (by simp)
  have hplaced := placeFrame_frame s (writeSingleRespBytes a f reg v c) 0x04
  rw [writeSingleRespBytes_length] at hin hplaced
  have hlen : (s.placeFrame (writeSingleRespBytes a f reg v c) 0x04).inLen = 8 :=
    placeInput_inLen s (writeSingleRespBytes a f reg v c)
  have hstatus : (parseWriteSingleCommand Params.block
      (s.placeFrame (writeSingleRespBytes a f reg v c) 0x04)).status = statusByte
        (checkWriteSingle Params.block (writeSingleRespBytes a f reg v c) s.sentBytes) := by
    rw [parseWriteSingleCommand_of_fits _ _ (by rw [hlen]; decide), hlen]
    exact congrArg (fun r => statusByte (checkWriteSingle Params.block r s.sentBytes)) hin
  refine ⟨_, exec_writeSingleResp s a f reg v c, ?_, ?_, ?_, ?_,
    keepsAllBut_trans_mono _ _ _ _ _ _ hplaced (parseWriteSingleCommand_frame _ _) fun off => ?_⟩
  · rw [parseWriteSingleCommand_eq]
    exact hin
  · rw [parseWriteSingleCommand_eq]
    exact hlen
  · rw [parseWriteSingleCommand_eq]
    rfl
  · rw [hstatus, checkWriteSingle_of_fields]
  · grind
end

section
/-! The host's statements, run access by access (spec/30_encoding.md R84 to R86). -/

namespace Sys2Proof.Machine

/-- A run of `k` steps that answers a state is continued from that state. -/
theorem run_add (k m : Nat) (s t : State) (h : run k s = .next t) : run (k + m) s = run m t := by
  induction k generalizing s with
  | zero =>
    cases h
    rw [Nat.zero_add]
  | succ k ih =>
    cases hs : step s with
    | next u =>
      rw [run_succ k s u hs] at h
      rw [Nat.succ_add, run_succ _ s u hs]
      exact ih u h
    | fault why =>
      rw [run, hs] at h
      cases h
    | refused why =>
      rw [run, hs] at h
      cases h

/-- The writes that place an input and the write of a command run that command on the input. -/
theorem run_wrInput_cmd (s : State) (bytes : List Byte) (word : Byte) (rest : List HostAction)
    (h : bytes.length ≤ 256) (hp : s.pending = wrInput bytes ++ wr 0x000 word :: rest) :
    run (bytes.length + 3) s =
      exec (decodeCommand word) (({ s with pending := rest } : State).placeFrame bytes word) := by
  have hrun := run_wrInput 1 s bytes (wr 0x000 word :: rest) h
  rw [← hp, run_wr_cmd] at hrun
  exact hrun

/-- The accesses of a response row and the row itself (log 4). -/
theorem run_readResp (s : State) (rest : List HostAction) (a f n : Byte) (ws : List Word) (c : Word)
    (h : ws.length ≤ 125) :
    run (8 + 2 * ws.length)
        { s with pending := wrInput (readRespBytes a f n ws c) ++ wr 0x000 0x03 :: rest } =
      exec (.readResp a f n ws c) { s with pending := rest } := by
  have hlen := readRespBytes_length a f n ws c
  rw [show 8 + 2 * ws.length = (readRespBytes a f n ws c).length + 3 by omega,
    run_wrInput_cmd _ _ 0x03 rest (by omega) rfl]
  rfl

theorem run_writeSingleResp (s : State) (rest : List HostAction) (a f : Byte) (reg v c : Word) :
    run 11
        { s with pending := wrInput (writeSingleRespBytes a f reg v c) ++ wr 0x000 0x04 :: rest } =
      exec (.writeSingleResp a f reg v c) { s with pending := rest } := by
  rw [show 11 = (writeSingleRespBytes a f reg v c).length + 3 by rfl,
    run_wrInput_cmd _ _ 0x04 rest (by simp) rfl]
  rfl

/-- The operand writes of `PARSE_READ [..], a, f, n` (R84). -/
def State.setParseOperands (s : State) (a f : Byte) (n : Word) : State :=
  { s with addr := a, fc := f, cntHi := hi8 n, cntLo := lo8 n }

@[simp] theorem State.setParseOperands_cnt (s : State) (a f : Byte) (n : Word) :
    (s.setParseOperands a f n).cnt = n :=
  u16_hi8_lo8 n

@[simp] theorem State.setParseOperands_inLen (s : State) (a f : Byte) (n : Word) :
    (s.setParseOperands a f n).inLen = s.inLen := rfl

@[simp] theorem State.setParseOperands_input (s : State) (a f : Byte) (n : Word) (k : Nat) :
    (s.setParseOperands a f n).input k = s.input k :=
  input_congr _ _ k rfl rfl

/-- The statement PARSE_READ runs PARSE_READ on its input and operands (R84). -/
theorem run_parseRead (s : State) (rest : List HostAction) (bytes : List Byte) (a f : Byte)
    (n : Word) (h : bytes.length ≤ 256) :
    run (bytes.length + 7) { s with pending := (Statement.parseRead bytes a f n).expand ++ rest } =
      .next (parseReadCommand Params.block
        ((({ s with pending := rest } : State).placeFrame bytes 0x03).setParseOperands a f n)) := by
  rw [Statement.expand, List.append_assoc, run_wrInput 5 s bytes _ h]
  rfl

/-- PARSE_READ accepts a well-formed response whose operands match (spec/42_frame_parse.md R158). -/
theorem parseReadCommand_readResponse (s p : State) (a f : Byte) (ws : List Word)
    (hws : ws.length ≤ 125)
    (hp : p = (s.placeFrame (readResponse a f ws) 0x03).setParseOperands a f
      (BitVec.ofNat 16 ws.length)) : parseReadCommand Params.block p = p.succeedRead ws := by
  have hbytes := readResponse_length a f ws
  have hlen : p.inLen.toNat = 5 + 2 * ws.length := by
    rw [hp, State.setParseOperands_inLen, placeFrame_inLen_toNat _ _ _ (by omega), hbytes]
  have hin : p.input (5 + 2 * ws.length) = readResponse a f ws := by
    rw [hp, State.setParseOperands_input, ← hbytes, placeFrame_input _ _ _ (by omega)]
  have hcnt : p.cnt.toNat = ws.length := by
    rw [hp, State.setParseOperands_cnt, BitVec.toNat_ofNat, Nat.mod_eq_of_lt (by omega)]
  have haddr : a = p.addr := by rw [hp]; rfl
  have hfc : f = p.fc := by rw [hp]; rfl
  have hcount : (BitVec.ofNat 8 (2 * ws.length)).toNat = 2 * ws.length := by
    rw [BitVec.toNat_ofNat, Nat.mod_eq_of_lt (by omega)]
  refine parseReadCommand_of_fields_ok p a f _ ws _ hlen hin ?_
  rw [parseReadCommand_status_of_fields p a f _ ws _ hlen hws hin, if_neg (not_not.mpr hcnt.symm),
    if_neg (not_not.mpr rfl), if_neg (not_not.mpr haddr), if_neg (not_not.mpr hfc),
    if_neg (not_not.mpr hcount)]

/-- PARSE_WRITE_SINGLE accepts the echo of the request in SENT_REQ (spec/41_frame_build.md R129). -/
theorem parseWriteSingleCommand_echo_status (s : State) (a : Byte) (st v : Word)
    (h : s.sentBytes = requestBody a 0x06 st v) :
    (parseWriteSingleCommand Params.block
      (s.placeFrame (requestFrame a 0x06 st v) 0x04)).status = 0x80 := by
  refine (parseWriteSingleCommand_status_ok_iff _).mpr ⟨placeInput_inLen s _, ?_⟩
  rw [State.placeFrame_sentBytes, h]
  exact placeFrame_input s (requestFrame a 0x06 st v) 0x04 (by simp)

/-- The statement WRITE_SINGLE_REQ builds its frame when the address is not 0 (R85, R127). -/
theorem run_writeSingleReq (s : State) (rest : List HostAction) (a : Byte) (st v : Word)
    (ha : a ≠ 0) :
    ∃ t, run 6 { s with pending := (Statement.writeSingleReq a st v).expand ++ rest } = .next t ∧
      t.frameOut = requestFrame a 0x06 st v ∧ t.pending = rest := by
  have hargs : writeArgsOk Params.block a v = true := (writeArgsOk_block_iff a v).mpr ha
  have hrow : run 6 { s with pending := (Statement.writeSingleReq a st v).expand ++ rest } =
      exec (.writeSingleReq a st v) { s with pending := rest } := rfl
  rw [exec_writeSingleReq, buildWriteSingleCommand, State.setWriteOperands_addr,
    State.setWriteOperands_start, State.setWriteOperands_cnt, if_pos hargs] at hrow
  exact ⟨_, hrow, succeedBuild_frameOut _ _ rfl, rfl⟩

/-! ### COPY_SENT_REQ -/

/-- One line of COPY_SENT_REQ, whatever SENT_REQ and the byte last read were (R85). -/
theorem run_copyLine (k : Nat) (s : State) (q : Vector Byte 6) (readData : Byte) (j : Fin 6)
    (rest : List HostAction) :
    run (k + 2)
        { s with
          sentReq := q
          readData := readData
          pending := .read (0x018 + j.val) 1 :: .writeBack (0x010 + j.val) :: rest } =
      run k
        { s with
          sentReq := q.set j (s.bufByte (0x018 + j.val))
          readData := s.bufByte (0x018 + j.val)
          pending := rest } := by
  have hbyte : (({ s with
        sentReq := q
        readData := readData
        pending := .read (0x018 + j.val) 1 :: .writeBack (0x010 + j.val) :: rest } : State).memRead
          Params.block (0x018 + j.val)) = s.bufByte (0x018 + j.val) := by
    rw [State.memRead, ← frameOutBase_eq, regAt_frameOut _ _ (by omega)]
    rfl
  rw [run_copyByte k _ (0x018 + j.val) j rest (by omega) rfl, hbyte]

/-- Six bytes set one by one are those six bytes. -/
theorem vector_set_all (q : Vector Byte 6) (b0 b1 b2 b3 b4 b5 : Byte) :
    (((((q.set 0 b0).set 1 b1).set 2 b2).set 3 b3).set 4 b4).set 5 b5 =
      #v[b0, b1, b2, b3, b4, b5] := by
  ext i hi
  interval_cases i <;> simp

/-- What COPY_SENT_REQ leaves (R85). -/
def State.copySent (s : State) (rest : List HostAction) : State :=
  { s with
    sentReq := #v[s.bufByte 0x018, s.bufByte 0x019, s.bufByte 0x01A, s.bufByte 0x01B,
      s.bufByte 0x01C, s.bufByte 0x01D]
    readData := s.bufByte 0x01D
    pending := rest }

/-- The run of COPY_SENT_REQ's six lines (R85). -/
theorem run_copySentReq (k : Nat) (s : State) (rest : List HostAction)
    (hp : s.pending = Statement.copySentReq.expand ++ rest) :
    run (k + 12) s = run k (s.copySent rest) := by
  have hs : s = { s with pending := Statement.copySentReq.expand ++ rest } := by rw [← hp]
  rw [State.copySent, ← vector_set_all s.sentReq]
  refine (congrArg (run (k + 12)) hs).trans <| (run_copyLine (k + 10) s _ _ 0 _).trans <|
    (run_copyLine (k + 8) s _ _ 1 _).trans <| (run_copyLine (k + 6) s _ _ 2 _).trans <|
    (run_copyLine (k + 4) s _ _ 3 _).trans <| (run_copyLine (k + 2) s _ _ 4 _).trans <|
    run_copyLine k s _ _ 5 _

/-- SENT_REQ after COPY_SENT_REQ is what FRAME_OUT began with (R85). -/
@[simp] theorem State.copySent_sentBytes (s : State) (rest : List HostAction) :
    (s.copySent rest).sentBytes = s.frameOut.take 6 := rfl

/-- COPY_SENT_REQ writes no byte of the register space outside SENT_REQ (R73, R85). -/
theorem memRead_copySent (p : Params) (s : State) (rest : List HostAction) (off : Nat)
    (h : ¬ (0x010 ≤ off ∧ off ≤ 0x015)) :
    (s.copySent rest).memRead p off = s.memRead p off := by
  have hreg : ∀ k, regAt p off ≠ .sentReq k := by
    intro k hk
    rcases regAt_cases p off with ⟨ho, hr⟩ | ⟨j, he, -⟩ | ⟨j, -, -, hr⟩ | ⟨j, -, -, hr⟩ |
      ⟨j, -, -, hr⟩ | ⟨-, hr⟩
    · rw [hr] at hk
      interval_cases off <;> cases hk
    · omega
    all_goals
      rw [hr] at hk
      cases hk
  simp only [State.memRead]
  cases hr : regAt p off with
  | sentReq k => exact absurd hr (hreg k)
  | _ => rfl

end Sys2Proof.Machine

open Sys2Proof Sys2Proof.Machine

/-- Settles O39: each of the six or seven writes is evaluated in turn. -/
theorem requestStatementsAreTheirExpansion : Obligations.RequestStatementsAreTheirExpansion :=
  fun _ _ _ _ _ => ⟨rfl, rfl, rfl⟩

/-- Settles O40: placing the input, then the parse command. -/
theorem responseFramesAreTheirExpansion : Obligations.ResponseFramesAreTheirExpansion :=
  ⟨run_readResp, run_writeSingleResp⟩

/-- Settles O41: CRC16 on the bytes placed, which fit IN_BUF. -/
theorem crc16StatementComputesChecksum : Obligations.Crc16StatementComputesChecksum := by
  intro s rest bytes h
  have hlen := placeFrame_inLen_toNat { s with pending := rest } bytes 0x00 h
  have hin := placeFrame_input { s with pending := rest } bytes 0x00 h
  have hrun := run_wrInput_cmd { s with pending := (Statement.crc16 bytes).expand ++ rest } bytes
    0x00 rest h (List.append_assoc _ _ _)
  rw [show decodeCommand 0x00 = .crc16 from rfl, exec_crc16,
    crc16Command_of_fits _ _ (by rwa [hlen]), hlen, hin] at hrun
  exact ⟨_, hrun, (State.finish_crcOut _ _).trans (State.setCrcOut_crcOut _ _), rfl, rfl⟩

/-- Settles O42: the response has the fields its checks ask for, so its words are written. -/
theorem readResponseRoundTrip : Obligations.ReadResponseRoundTrip := by
  intro s rest a f ws hws
  have hbytes := readResponse_length a f ws
  have hrun := run_parseRead s rest (readResponse a f ws) a f (BitVec.ofNat 16 ws.length) (by omega)
  rw [parseReadCommand_readResponse _ _ a f ws hws rfl, hbytes] at hrun
  rw [show 12 + 2 * ws.length = 5 + 2 * ws.length + 7 by omega]
  exact ⟨_, hrun, rfl, succeedRead_wordsLen_toNat _ ws hws, succeedRead_wordOut _ ws, rfl⟩

/-- Settles O43: the request is built, its first six bytes are copied, and its echo is accepted. -/
theorem writeSingleEchoAccepted : Obligations.WriteSingleEchoAccepted := by
  intro s rest a st v ha
  have hlen := requestFrame_length a 0x06 st v
  obtain ⟨built, hbuild, hframe, hpending⟩ := run_writeSingleReq s (Statement.copySentReq.expand ++
    (wrInput (requestFrame a 0x06 st v) ++ wr 0x000 0x04 :: rest)) a st v ha
  have hcopy := run_copySentReq 11 built _ hpending
  have hecho := run_wrInput_cmd (built.copySent _) (requestFrame a 0x06 st v) 0x04 rest
    (by omega) rfl
  refine ⟨_, (run_add 6 23 _ built hbuild).trans (hcopy.trans hecho),
    parseWriteSingleCommand_echo_status _ a st v ?_, (parseWriteSingleCommand_frame _ _).2.2.2⟩
  exact (State.copySent_sentBytes built _).trans (congrArg (List.take 6) hframe)

/-- Settles O44: the run of the six lines, which touches SENT_REQ and what is the host's. -/
theorem copySentReqCopiesFrame : Obligations.CopySentReqCopiesFrame := by
  intro s rest
  refine ⟨_, run_copySentReq 0 { s with pending := Statement.copySentReq.expand ++ rest } rest rfl,
    rfl, rfl, rfl, fun off hoff => ?_⟩
  rw [memRead_copySent _ _ rest off hoff, memRead_withPending]
end
